-- ==== Sys2Proof/Word.lean ====
section
/-! DEFINITION. The word types of the block (10_state.md R10, R14, R15; 30_encoding.md R60, R61). Every value of this
hardware is an unsigned bit string of a stated width (00_scope.md R5, R7). -/

namespace Sys2Proof

/-- A general register's contents, an 8-bit immediate `KK`, or one byte of memory (R10, R25, R61). -/
abbrev Byte := BitVec 8

/-- The 16-bit instruction word, program counter, index register or stack entry (R14, R15, R18, R60). -/
abbrev Word := BitVec 16

/-- A 4-bit field of the instruction word (R61; "nibble" of 00_scope.md R9). -/
abbrev Nibble := BitVec 4

/-- A register index: a 4-bit field, so an index out of range cannot be formed (10_state.md R10). -/
abbrev RegIdx := BitVec 4

/-- The 12-bit field `NNN` (R61, R63). -/
abbrev Addr12 := BitVec 12

end Sys2Proof
end

