-- ==== Sys2Proof/Syntax.lean ====
section
/-! DEFINITION. The instructions: one constructor per row of spec/opcode_table.json (30_encoding.md R65). A constructor
holds every field that the row's encoding has, the ignored ones too (R66), so that each word has one term. -/

namespace Sys2Proof

/-- The 25 rows of the opcode map (R65), in the table's order. `x` and `y` are the register fields `X` and `Y`, `kk` is
`KK`, `nnn` is `NNN`, `d` is `D`. -/
inductive Instr where
  /-- HALT, word 0x0000 (40_executor_step.md R85). -/
  | halt
  /-- RETURN, word 0x00EE (41_control_transfer.md R92). -/
  | ret
  /-- JUMP, `1nnn` (R90). -/
  | jump (nnn : Addr12)
  /-- CALL, `2nnn` (R91). -/
  | call (nnn : Addr12)
  /-- SKIP_EQ, `3xkk` (42_skip.md R100). -/
  | skipEq (x : RegIdx) (kk : Byte)
  /-- SKIP_NEQ, `4xkk` (R101). -/
  | skipNeq (x : RegIdx) (kk : Byte)
  /-- SKIP_EQ_REG, `5xy0` (R102). -/
  | skipEqReg (x y : RegIdx)
  /-- LOAD_IMM, `6xkk` (43_immediate_and_index.md R110). -/
  | loadImm (x : RegIdx) (kk : Byte)
  /-- ADD_IMM, `7xkk` (R111). -/
  | addImm (x : RegIdx) (kk : Byte)
  /-- MOV, `8xy0` (44_alu.md R120). -/
  | mov (x y : RegIdx)
  /-- OR, `8xy1` (R121). -/
  | or (x y : RegIdx)
  /-- AND, `8xy2` (R122). -/
  | and (x y : RegIdx)
  /-- XOR, `8xy3` (R123). -/
  | xor (x y : RegIdx)
  /-- ADD_REG, `8xy4` (R124). -/
  | addReg (x y : RegIdx)
  /-- SUB_REG, `8xy5` (R125). -/
  | subReg (x y : RegIdx)
  /-- SHR, `8xy6`; `y` is ignored (R126, R66). -/
  | shr (x y : RegIdx)
  /-- SUBN_REG, `8xy7` (R127). -/
  | subnReg (x y : RegIdx)
  /-- SHL, `8xyE`; `y` is ignored (R128, R66). -/
  | shl (x y : RegIdx)
  /-- SKIP_NEQ_REG, `9xyd`; `d` is ignored (R103, R66). -/
  | skipNeqReg (x y : RegIdx) (d : Nibble)
  /-- SET_INDEX, `Annn` (R112). -/
  | setIndex (nnn : Addr12)
  /-- JUMP_OFFSET, `Bnnn` (R93). -/
  | jumpOffset (nnn : Addr12)
  /-- RANDOM_AND, `Cxkk` (45_random.md R140). -/
  | randomAnd (x : RegIdx) (kk : Byte)
  /-- STUB_D, `Dnnn`; `nnn` is ignored (46_stubbed_and_unknown.md R145). -/
  | stubD (nnn : Addr12)
  /-- STUB_E, `Ennn`; `nnn` is ignored (R145). -/
  | stubE (nnn : Addr12)
  /-- STUB_F, `Fnnn`; `nnn` is ignored (R145). -/
  | stubF (nnn : Addr12)
  deriving DecidableEq, Repr

/-- The five format shapes of 30_encoding.md R62. -/
inductive Format where
  /-- Fixed word: all 16 bits are fixed. -/
  | Z
  /-- Address: `C` and `NNN`. -/
  | A
  /-- Register and immediate: `C`, `X`, `KK`. -/
  | I
  /-- Register and register: `C`, `X`, `Y`, `D`. -/
  | R
  /-- Stub: `C` only. -/
  | S
  deriving DecidableEq, Repr

end Sys2Proof
end

