-- ==== Sys2Proof/WellFormed.lean ====
section
/-! DEFINITION. Well-formed instructions. The operand widths are carried by the types (a register index is a 4-bit field,
10_state.md R10; `KK` has 8 and `NNN` 12 bits, 30_encoding.md R63), so no term of `Instr` has an operand out of range.
What is left to check is the IGNORED fields: an assembler emits 0 in them, and a decoder accepts any value (R66, R71). A
term is well formed when a line of R71's assembly denotes it. Every statement of this package about decoding and running
holds for EVERY term, well formed or not (log entry 10). -/

namespace Sys2Proof

/-- The term is one that an assembly line of R71 denotes: the ignored field of SHR, SHL and SKIP_NEQ_REG is 0. The stub
rows are written with all 12 bits (`STUB_D 0xNNN`), so every stub term is well formed. -/
def Instr.wellFormed : Instr → Bool
  | .halt => true
  | .ret => true
  | .jump _ => true
  | .call _ => true
  | .skipEq _ _ => true
  | .skipNeq _ _ => true
  | .skipEqReg _ _ => true
  | .loadImm _ _ => true
  | .addImm _ _ => true
  | .mov _ _ => true
  | .or _ _ => true
  | .and _ _ => true
  | .xor _ _ => true
  | .addReg _ _ => true
  | .subReg _ _ => true
  | .shr _ y => y == 0#4
  | .subnReg _ _ => true
  | .shl _ y => y == 0#4
  | .skipNeqReg _ _ d => d == 0#4
  | .setIndex _ => true
  | .jumpOffset _ => true
  | .randomAnd _ _ => true
  | .stubD _ => true
  | .stubE _ => true
  | .stubF _ => true

/-- The same instruction with 0 in its ignored field: the term the assembler of R71 writes for it. -/
def Instr.assembled : Instr → Instr
  | .halt => .halt
  | .ret => .ret
  | .jump nnn => .jump nnn
  | .call nnn => .call nnn
  | .skipEq x kk => .skipEq x kk
  | .skipNeq x kk => .skipNeq x kk
  | .skipEqReg x y => .skipEqReg x y
  | .loadImm x kk => .loadImm x kk
  | .addImm x kk => .addImm x kk
  | .mov x y => .mov x y
  | .or x y => .or x y
  | .and x y => .and x y
  | .xor x y => .xor x y
  | .addReg x y => .addReg x y
  | .subReg x y => .subReg x y
  | .shr x _ => .shr x 0#4
  | .subnReg x y => .subnReg x y
  | .shl x _ => .shl x 0#4
  | .skipNeqReg x y _ => .skipNeqReg x y 0#4
  | .setIndex nnn => .setIndex nnn
  | .jumpOffset nnn => .jumpOffset nnn
  | .randomAnd x kk => .randomAnd x kk
  | .stubD nnn => .stubD nnn
  | .stubE nnn => .stubE nnn
  | .stubF nnn => .stubF nnn

end Sys2Proof
end

