-- ==== Sys2Proof/Decode.lean ====
section
/-! DEFINITION. The decoder and the encoder, both written from the opcode map of 30_encoding.md R65 and the fields of R61.
The decoder is total and pure: the same function of the word in every state (R64, R70, R82). -/

namespace Sys2Proof

/-- The six fields that the decoder produces for every word (R61). -/
structure Fields where
  /-- `C`, bits 15 to 12: the instruction class. -/
  c : Nibble
  /-- `X`, bits 11 to 8. -/
  x : RegIdx
  /-- `Y`, bits 7 to 4. -/
  y : RegIdx
  /-- `D`, bits 3 to 0. -/
  d : Nibble
  /-- `NNN`, bits 11 to 0. -/
  nnn : Addr12
  /-- `KK`, bits 7 to 0. -/
  kk : Byte
  deriving DecidableEq, Repr

/-- The decomposition of R61. -/
def fields (w : Word) : Fields where
  c := w.extractLsb' 12 4
  x := w.extractLsb' 8 4
  y := w.extractLsb' 4 4
  d := w.extractLsb' 0 4
  nnn := w.extractLsb' 0 12
  kk := w.extractLsb' 0 8

/-- Why the decoder gives no instruction. -/
inductive DecodeError where
  /-- The word matches no row of R65: an unknown encoding (R67, R147). Raised by `decode`; the step turns it into the
  UnknownOpcode fault. Safe: it is the spec's own outcome. -/
  | unknownOpcode (w : Word)
  /-- Fewer than the two bytes of an instruction (R60). Raised by `decodeBytes` only. Safe: the fetch bound of
  20_memory.md R43 keeps the step from it. -/
  | truncated
  deriving DecidableEq, Repr

/-- Class 0: exactly the two words 0x0000 and 0x00EE are instructions (R65 rows 1 and 2, R67). -/
def decodeClass0 (w : Word) : Except DecodeError Instr :=
  if w = 0x0000#16 then .ok .halt
  else if w = 0x00EE#16 then .ok .ret
  else .error (.unknownOpcode w)

/-- Class 5: only `D = 0` selects SKIP_EQ_REG (R65 row 7, R66). -/
def decodeClass5 (w : Word) (f : Fields) : Except DecodeError Instr :=
  if f.d = 0#4 then .ok (.skipEqReg f.x f.y) else .error (.unknownOpcode w)

/-- Class 8: `D` selects the operation (R65 rows 10 to 18); 8, 9, A, B, C, D, F select nothing (R67). -/
def decodeClass8 (w : Word) (f : Fields) : Except DecodeError Instr :=
  match f.d with
  | 0x0#4 => .ok (.mov f.x f.y)
  | 0x1#4 => .ok (.or f.x f.y)
  | 0x2#4 => .ok (.and f.x f.y)
  | 0x3#4 => .ok (.xor f.x f.y)
  | 0x4#4 => .ok (.addReg f.x f.y)
  | 0x5#4 => .ok (.subReg f.x f.y)
  | 0x6#4 => .ok (.shr f.x f.y)
  | 0x7#4 => .ok (.subnReg f.x f.y)
  | 0xE#4 => .ok (.shl f.x f.y)
  | _ => .error (.unknownOpcode w)

/-- The dispatcher's selection by the fields (R64, R65). The sixteen classes are all named; the last line is reached by no
word. -/
def decode (w : Word) : Except DecodeError Instr :=
  let f := fields w
  match f.c with
  | 0x0#4 => decodeClass0 w
  | 0x1#4 => .ok (.jump f.nnn)
  | 0x2#4 => .ok (.call f.nnn)
  | 0x3#4 => .ok (.skipEq f.x f.kk)
  | 0x4#4 => .ok (.skipNeq f.x f.kk)
  | 0x5#4 => decodeClass5 w f
  | 0x6#4 => .ok (.loadImm f.x f.kk)
  | 0x7#4 => .ok (.addImm f.x f.kk)
  | 0x8#4 => decodeClass8 w f
  | 0x9#4 => .ok (.skipNeqReg f.x f.y f.d)
  | 0xA#4 => .ok (.setIndex f.nnn)
  | 0xB#4 => .ok (.jumpOffset f.nnn)
  | 0xC#4 => .ok (.randomAnd f.x f.kk)
  | 0xD#4 => .ok (.stubD f.nnn)
  | 0xE#4 => .ok (.stubE f.nnn)
  | 0xF#4 => .ok (.stubF f.nnn)
  | _ => .error (.unknownOpcode w)

/-- The word of two bytes, the first in the more significant place (20_memory.md R41). -/
def wordOfBytes (hi lo : Byte) : Word := hi ++ lo

/-- The first instruction of a list of bytes and the bytes after it (R60: two bytes, the more significant first). -/
def decodeBytes : List Byte → Except DecodeError (Instr × List Byte)
  | hi :: lo :: rest => (decode (wordOfBytes hi lo)).map fun i => (i, rest)
  | _ => .error .truncated

/-- A word from its four nibbles, the most significant first (R61, R62). -/
def wordOfNibbles (c x y d : Nibble) : Word := c ++ x ++ y ++ d

/-- The word of a format I instruction: `C`, `X`, `KK` (R62). -/
def wordI (c : Nibble) (x : RegIdx) (kk : Byte) : Word := c ++ x ++ kk

/-- The word of a format A or S instruction: `C` and the low 12 bits (R62). -/
def wordA (c : Nibble) (nnn : Addr12) : Word := c ++ nnn

/-- The word of an instruction, from the opcode map (R65) and the syntax table (R71). -/
def encode : Instr → Word
  | .halt => 0x0000#16
  | .ret => 0x00EE#16
  | .jump nnn => wordA 0x1#4 nnn
  | .call nnn => wordA 0x2#4 nnn
  | .skipEq x kk => wordI 0x3#4 x kk
  | .skipNeq x kk => wordI 0x4#4 x kk
  | .skipEqReg x y => wordOfNibbles 0x5#4 x y 0x0#4
  | .loadImm x kk => wordI 0x6#4 x kk
  | .addImm x kk => wordI 0x7#4 x kk
  | .mov x y => wordOfNibbles 0x8#4 x y 0x0#4
  | .or x y => wordOfNibbles 0x8#4 x y 0x1#4
  | .and x y => wordOfNibbles 0x8#4 x y 0x2#4
  | .xor x y => wordOfNibbles 0x8#4 x y 0x3#4
  | .addReg x y => wordOfNibbles 0x8#4 x y 0x4#4
  | .subReg x y => wordOfNibbles 0x8#4 x y 0x5#4
  | .shr x y => wordOfNibbles 0x8#4 x y 0x6#4
  | .subnReg x y => wordOfNibbles 0x8#4 x y 0x7#4
  | .shl x y => wordOfNibbles 0x8#4 x y 0xE#4
  | .skipNeqReg x y d => wordOfNibbles 0x9#4 x y d
  | .setIndex nnn => wordA 0xA#4 nnn
  | .jumpOffset nnn => wordA 0xB#4 nnn
  | .randomAnd x kk => wordI 0xC#4 x kk
  | .stubD nnn => wordA 0xD#4 nnn
  | .stubE nnn => wordA 0xE#4 nnn
  | .stubF nnn => wordA 0xF#4 nnn

/-- The two bytes of an instruction in memory order (R60). -/
def encodeBytes (i : Instr) : List Byte := [(encode i).extractLsb' 8 8, (encode i).extractLsb' 0 8]

/-- The instruction the decoder reads from a word numbered as spec/opcode_table.json numbers it: `w` below `2 ^ nbits`,
laid out as the hardware stores it, the more significant byte first (R60). -/
def decodeTableWord (nbits w : Nat) : Option Instr :=
  let word : Word := BitVec.ofNat 16 (w % 2 ^ nbits)
  match decodeBytes [word.extractLsb' 8 8, word.extractLsb' 0 8] with
  | .ok (i, _) => some i
  | .error _ => none

/-- One row of the opcode map as R65 writes it: a word `w` selects the row when `w & mask = match`. -/
structure OpcodeRow where
  mnemonic : String
  format : Format
  pattern : Word
  mask : Word
  deriving DecidableEq, Repr

/-- `w & mask = match` (R65). -/
def OpcodeRow.selects (r : OpcodeRow) (w : Word) : Bool := w &&& r.mask == r.pattern

/-- Rows 1 to 9 of R65. -/
def opcodeMapLow : List OpcodeRow :=
  [⟨"HALT", .Z, 0x0000#16, 0xFFFF#16⟩, ⟨"RETURN", .Z, 0x00EE#16, 0xFFFF#16⟩, ⟨"JUMP", .A, 0x1000#16, 0xF000#16⟩,
   ⟨"CALL", .A, 0x2000#16, 0xF000#16⟩, ⟨"SKIP_EQ", .I, 0x3000#16, 0xF000#16⟩, ⟨"SKIP_NEQ", .I, 0x4000#16, 0xF000#16⟩,
   ⟨"SKIP_EQ_REG", .R, 0x5000#16, 0xF00F#16⟩, ⟨"LOAD_IMM", .I, 0x6000#16, 0xF000#16⟩,
   ⟨"ADD_IMM", .I, 0x7000#16, 0xF000#16⟩]

/-- Rows 10 to 18 of R65, class 8. -/
def opcodeMapAlu : List OpcodeRow :=
  [⟨"MOV", .R, 0x8000#16, 0xF00F#16⟩, ⟨"OR", .R, 0x8001#16, 0xF00F#16⟩, ⟨"AND", .R, 0x8002#16, 0xF00F#16⟩,
   ⟨"XOR", .R, 0x8003#16, 0xF00F#16⟩, ⟨"ADD_REG", .R, 0x8004#16, 0xF00F#16⟩, ⟨"SUB_REG", .R, 0x8005#16, 0xF00F#16⟩,
   ⟨"SHR", .R, 0x8006#16, 0xF00F#16⟩, ⟨"SUBN_REG", .R, 0x8007#16, 0xF00F#16⟩, ⟨"SHL", .R, 0x800E#16, 0xF00F#16⟩]

/-- Rows 19 to 25 of R65. -/
def opcodeMapHigh : List OpcodeRow :=
  [⟨"SKIP_NEQ_REG", .R, 0x9000#16, 0xF000#16⟩, ⟨"SET_INDEX", .A, 0xA000#16, 0xF000#16⟩,
   ⟨"JUMP_OFFSET", .A, 0xB000#16, 0xF000#16⟩, ⟨"RANDOM_AND", .I, 0xC000#16, 0xF000#16⟩,
   ⟨"STUB_D", .S, 0xD000#16, 0xF000#16⟩, ⟨"STUB_E", .S, 0xE000#16, 0xF000#16⟩, ⟨"STUB_F", .S, 0xF000#16, 0xF000#16⟩]

/-- The opcode map of R65, all 25 rows in the table's order. -/
def opcodeMap : List OpcodeRow := opcodeMapLow ++ opcodeMapAlu ++ opcodeMapHigh

/-- The number of an instruction's row in the opcode map, counted from 0 (the table's # less 1). -/
def Instr.rowNumber : Instr → Fin 25
  | .halt => 0
  | .ret => 1
  | .jump _ => 2
  | .call _ => 3
  | .skipEq _ _ => 4
  | .skipNeq _ _ => 5
  | .skipEqReg _ _ => 6
  | .loadImm _ _ => 7
  | .addImm _ _ => 8
  | .mov _ _ => 9
  | .or _ _ => 10
  | .and _ _ => 11
  | .xor _ _ => 12
  | .addReg _ _ => 13
  | .subReg _ _ => 14
  | .shr _ _ => 15
  | .subnReg _ _ => 16
  | .shl _ _ => 17
  | .skipNeqReg _ _ _ => 18
  | .setIndex _ => 19
  | .jumpOffset _ => 20
  | .randomAnd _ _ => 21
  | .stubD _ => 22
  | .stubE _ => 23
  | .stubF _ => 24

/-- An instruction's row of the opcode map. -/
def Instr.row (i : Instr) : OpcodeRow := opcodeMap[i.rowNumber.val]'(i.rowNumber.isLt)

/-- A hexadecimal digit, capital letters as the spec writes them. -/
def hexDigit (n : Nibble) : Char := "0123456789ABCDEF".toList.getD n.toNat '0'

/-- `reg` and one hexadecimal digit (30_encoding.md R71, 10_state.md R13). -/
def regText (r : RegIdx) : String := "reg" ++ String.singleton (hexDigit r)

/-- `0x` and the two digits of `KK` (R71). -/
def kkText (kk : Byte) : String :=
  "0x" ++ String.ofList [hexDigit (kk.extractLsb' 4 4), hexDigit (kk.extractLsb' 0 4)]

/-- `0x` and the three digits of `NNN` (R71). -/
def nnnText (nnn : Addr12) : String :=
  "0x" ++ String.ofList [hexDigit (nnn.extractLsb' 8 4), hexDigit (nnn.extractLsb' 4 4), hexDigit (nnn.extractLsb' 0 4)]

/-- The operands of R71's syntax table, the destination or `X` register first; an ignored field is not written. -/
def Instr.operandTexts : Instr → List String
  | .halt => []
  | .ret => []
  | .jump nnn => [nnnText nnn]
  | .call nnn => [nnnText nnn]
  | .skipEq x kk => [regText x, kkText kk]
  | .skipNeq x kk => [regText x, kkText kk]
  | .skipEqReg x y => [regText x, regText y]
  | .loadImm x kk => [regText x, kkText kk]
  | .addImm x kk => [regText x, kkText kk]
  | .mov x y => [regText x, regText y]
  | .or x y => [regText x, regText y]
  | .and x y => [regText x, regText y]
  | .xor x y => [regText x, regText y]
  | .addReg x y => [regText x, regText y]
  | .subReg x y => [regText x, regText y]
  | .shr x _ => [regText x]
  | .subnReg x y => [regText x, regText y]
  | .shl x _ => [regText x]
  | .skipNeqReg x y _ => [regText x, regText y]
  | .setIndex nnn => [nnnText nnn]
  | .jumpOffset nnn => [nnnText nnn]
  | .randomAnd x kk => [regText x, kkText kk]
  | .stubD nnn => [nnnText nnn]
  | .stubE nnn => [nnnText nnn]
  | .stubF nnn => [nnnText nnn]

/-- The assembly line of an instruction as a list: the mnemonic, then the operands (R71). -/
def Instr.assembly (i : Instr) : List String := i.row.mnemonic :: i.operandTexts

/-- The word that an assembler emits for an instruction: 0 in an ignored field (R71). -/
def assemble (i : Instr) : Word := encode i.assembled

end Sys2Proof
end

