-- ==== Sys2Proof/Config.lean ====
section
/-! DEFINITION. The implementation parameters of 00_scope.md R4, the two readings of a flag-writing instruction that names
register 15 (44_alu.md R130), and the one free value of the model, the random byte (10_state.md R29). -/

namespace Sys2Proof.Config

/-- `MEM_SIZE` of R4: memory has the addresses 0 to 4095. -/
def memSize : Nat := 4096

/-- `START_ADDR` of R4: the reset value of `pc`. -/
def startAddr : Word := 0x200#16

/-- `FLAG_REG` of R4: general register 15 is the flag register (10_state.md R11). -/
def flagReg : RegIdx := 0xF#4

/-- `ALIAS_MODE` of R4 and R130: how a flag-writing instruction behaves when `X` or `Y` is 15. `latched` is this spec's
value (92_eei_decisions.md D3); `sequential` is the named alternative, in which the second assignment of the row reads
the register file again. -/
inductive AliasMode where
  | latched
  | sequential
  deriving DecidableEq, Repr

/-- The random-byte input `rnd` (10_state.md R29): the byte that the supplier gives for the n-th draw. A FREE VALUE over
all 256 byte values, with no body, so that nothing can be proved of a byte (45_random.md R140, 92_eei_decisions.md D6;
log entry 2). -/
opaque randomByte : Nat → Byte

end Sys2Proof.Config
end

