-- ==== Sys2Proof/Machine/State.lean ====
section
/-! DEFINITION. The whole state of the block (10_state.md section 1: "Nothing else is state") as plain data, the reasons a
transition can stop, and the state after reset (70_reset_and_hazards.md R190). -/

namespace Sys2Proof.Machine

/-- The run state (10_state.md R22). -/
inductive RunState where
  | idle
  | running
  | halted
  | faulted
  deriving DecidableEq, Repr

/-- The fault cause (10_state.md R23, 60_exceptions.md R160): `none` is code 0, the five faults are codes 1 to 5. -/
inductive Cause where
  | none
  | stackOverflow
  | stackUnderflow
  | outOfBoundsFetch
  | unknownOpcode
  | notImplemented
  deriving DecidableEq, Repr

/-- Why a transition of the model stops. No step and no instruction stops with one: the five faults of the hardware are
NEXT states with `run = FAULTED` (60_exceptions.md R172). -/
inductive Fault where
  /-- The host writes a byte at an address above 4095, which is not an address of anything (20_memory.md R40). Raised by
  `hostMove` only. Safe: the model stops where the spec names no memory. -/
  | noSuchAddress (addr : Nat)
  deriving DecidableEq, Repr

/-- Why the model gives no next state. -/
inductive Refusal where
  /-- An instruction whose meaning is not modelled yet. Raised by no arm of this model. Safe. -/
  | notModelled (mnemonic : String)
  /-- The host writes memory, a register or `pc` while `run` is not IDLE (10_state.md R30, 92_eei_decisions.md D19,
  93_implementation_defined.md U9: refuse). Raised by `hostMove` only. It assumes that no host does so (log entry 7). -/
  | hostAccessOutsideIdle
  deriving DecidableEq, Repr

/-- Memory: the bytes that differ from the reset contents, by address (10_state.md R25); `Memory.wf` in Machine/Ops.lean is
its canonical form. -/
abbrev Memory := List Host.Cell

/-- The state of the block. The first eight fields are the eight rows of 10_state.md section 1; `drawn` is the model's own.
-/
structure State where
  /-- `x[0]` to `x[15]` (R10); register 15 is also the flag register (R11). -/
  x : Vector Byte 16
  /-- The index register (R14). -/
  idx : Word
  /-- The program counter (R15). -/
  pc : Word
  /-- The call stack's 16 slots (R18). -/
  stk : Vector Word 16
  /-- The stack pointer, 0 to 16 (R19; typed as a number at most 16, 93_implementation_defined.md U12). -/
  sp : Fin 17
  /-- The run state (R22). -/
  run : RunState
  /-- The fault cause (R23). -/
  cause : Cause
  /-- `mem[0]` to `mem[4095]` (R25). -/
  mem : Memory
  /-- The model's own field: how many random bytes were taken so far, which names the next free byte (R29; log entry 2).
  -/
  drawn : Nat
  deriving DecidableEq, Repr

/-- The machine right after reset (70_reset_and_hazards.md R190). Memory lists nothing: every byte is 0. The value 0 of
`drawn` is the model's (DESIGN CHOICE, log entry 2). -/
def State.reset : State where
  x := Vector.replicate 16 0x00#8
  idx := 0x0000#16
  pc := Config.startAddr
  stk := Vector.replicate 16 0x0000#16
  sp := 0
  run := .idle
  cause := .none
  mem := []
  drawn := 0

end Sys2Proof.Machine
end

