-- ==== Sys2Proof/Machine/Ops.lean ====
section
/-! DEFINITION. The named operations over registers, memory, the call stack, the run state and the random input, and raising
a fault as one shared operation (60_exceptions.md R166). There is no return from a fault (R170). -/

namespace Sys2Proof.Machine

/-- The code of a run state (10_state.md R22). -/
def RunState.code : RunState → BitVec 2
  | .idle => 0#2
  | .running => 1#2
  | .halted => 2#2
  | .faulted => 3#2

/-- The code of a fault cause (10_state.md R23). -/
def Cause.code : Cause → BitVec 3
  | .none => 0#3
  | .stackOverflow => 1#3
  | .stackUnderflow => 2#3
  | .outOfBoundsFetch => 3#3
  | .unknownOpcode => 4#3
  | .notImplemented => 5#3

/-! ### Registers -/

/-- `x[i]` (00_scope.md R7). No register is hard-wired (10_state.md R10). -/
def State.reg (s : State) (i : RegIdx) : Byte := s.x[i.toNat]'(i.isLt)

/-- `x[i] <- v` (R7). -/
def State.setReg (s : State) (i : RegIdx) (v : Byte) : State := { s with x := s.x.set i.toNat v i.isLt }

/-- `idx <- v` (R7). -/
def State.setIdx (s : State) (v : Word) : State := { s with idx := v }

/-- `pc <- target` (R7). -/
def State.setPc (s : State) (v : Word) : State := { s with pc := v }

/-- The advance of the step, `pc <- p + 2`, before the execute part (40_executor_step.md R81). -/
def State.advance (s : State) : State := s.setPc (s.pc + 2#16)

/-- "advance program counter by 2 more" (42_skip.md R104): the execute part of a taken skip. -/
def State.skipNext (s : State) : State := s.setPc (s.pc + 2#16)

/-! ### Memory -/

/-- What an unlisted address reads as: the reset contents of memory (70_reset_and_hazards.md R190). -/
def unlistedByte : Byte := 0x00#8

/-- The byte at an address of the array, listed or not. -/
def Memory.read : Memory → Nat → Byte
  | [], _ => unlistedByte
  | (b, v) :: m, a => if b = a then v else Memory.read m a

/-- The array with one byte written, in canonical form. -/
def Memory.write : Memory → Nat → Byte → Memory
  | [], a, v => if v = unlistedByte then [] else [(a, v)]
  | (b, u) :: m, a, v =>
    if a < b then (if v = unlistedByte then (b, u) :: m else (a, v) :: (b, u) :: m)
    else if a = b then (if v = unlistedByte then m else (a, v) :: m)
    else (b, u) :: Memory.write m a v

/-- The canonical form: addresses strictly rising and inside memory, no entry equal to what an unlisted address reads as.
-/
abbrev Memory.wf (m : Memory) : Prop :=
  List.Pairwise (fun c d : Host.Cell => c.1 < d.1) m ∧ ∀ c ∈ m, c.1 < Config.memSize ∧ c.2 ≠ unlistedByte

/-- `MemRead(a, 1)` of 00_scope.md R7: the byte at a valid address, and nothing at an address above 4095, which is not an
address of anything (20_memory.md R40). Reads have no side effect (R46). -/
def State.memRead (s : State) (a : Nat) : Option Byte := if a < Config.memSize then some (s.mem.read a) else none

/-- The host's write of one byte of memory (10_state.md R30). No instruction calls it (20_memory.md R45). -/
def State.writeByte (s : State) (a : Nat) (v : Byte) : State := { s with mem := s.mem.write a v }

/-- Part 1 of the step (40_executor_step.md R80): the bound test of 20_memory.md R43 on the mathematical sum `pc + 1`, then
the two byte reads, big-endian (R41, R42). "accessing a missing byte is an out-of-bounds fault"; the bound test has
excluded that. -/
def State.fetch (s : State) : Except Cause Word :=
  if s.pc.toNat + 1 > Config.memSize - 1 then .error .outOfBoundsFetch
  else
    match s.memRead s.pc.toNat, s.memRead (s.pc.toNat + 1) with
    | some hi, some lo => .ok (hi ++ lo)
    | _, _ => .error .outOfBoundsFetch

/-! ### The call stack -/

/-- `Push(v)` (10_state.md R20): StackOverflow when `sp = 16`, and then neither `stk` nor `sp` changes. -/
def State.push (s : State) (v : Word) : Except Cause State :=
  if h : s.sp.val = 16 then .error .stackOverflow
  else .ok { s with
    stk := s.stk.set s.sp.val v (by omega)
    sp := ⟨s.sp.val + 1, by omega⟩ }

/-- `Pop()` (10_state.md R20): StackUnderflow when `sp = 0`; the popped slot keeps its contents. -/
def State.pop (s : State) : Except Cause (Word × State) :=
  if s.sp.val = 0 then .error .stackUnderflow
  else .ok (s.stk[s.sp.val - 1]'(by omega), { s with sp := ⟨s.sp.val - 1, by omega⟩ })

/-- `stk[j]` for a slot number (R18). -/
def State.slot (s : State) (j : Nibble) : Word := s.stk[j.toNat]'(j.isLt)

/-! ### The run state, faults, the random input -/

/-- `raise F` (60_exceptions.md R166): exactly two writes, `run <- FAULTED; cause <- code(F)`. What the step had written
before stays. -/
def State.raise (s : State) (c : Cause) : State := { s with run := .faulted, cause := c }

/-- `run <- HALTED` (40_executor_step.md R85). -/
def State.halt (s : State) : State := { s with run := .halted }

/-- A step outside RUNNING: the block takes no step and changes no state (R80; log entry 1). -/
def State.rest (s : State) : State := s

/-- The byte that the random-byte input holds out for the next draw (10_state.md R29): free (log entry 2). -/
def State.rnd (s : State) : Byte := Config.randomByte s.drawn

/-- The random-byte input after one byte was taken (R29). -/
def State.countDraw (s : State) : State := { s with drawn := s.drawn + 1 }

end Sys2Proof.Machine
end

