-- ==== Sys2Proof/Machine/Operands.lean ====
section
/-! DEFINITION. Operand assembly (30_encoding.md R63): every operand form of the instruction set. `KK` is used at its own
width and `X`, `Y` index registers directly (`State.reg`), so the only forms with a computation are the two below. -/

namespace Sys2Proof.Machine

/-- `zext_16(NNN)`: a jump or call target, or the value of SET_INDEX (R63). -/
def addrOperand (nnn : Addr12) : Word := nnn.zeroExtend 16

/-- The target of JUMP_OFFSET: `zext_16(x[0]) + zext_16(NNN)`, kept whole (41_control_transfer.md R93). -/
def offsetTarget (s : State) (nnn : Addr12) : Word := (s.reg 0x0#4).zeroExtend 16 + addrOperand nnn

end Sys2Proof.Machine
end

