-- ==== Sys2Proof/Machine/Flags.lean ====
section
/-! DEFINITION. Every flag computation of the block (10_state.md R21, 44_alu.md R129) and the order in which a flag-writing
instruction performs its two writes (R130). The one flag is general register 15 (10_state.md R11). -/

namespace Sys2Proof.Machine

/-- The 9-bit sum of ADD_REG (44_alu.md R124). -/
def sum9 (a b : Byte) : BitVec 9 := a.zeroExtend 9 + b.zeroExtend 9

/-- `s[7:0]`: the result of ADD_REG (R124). -/
def addResult (a b : Byte) : Byte := (sum9 a b).extractLsb' 0 8

/-- `zext_8(s[8])`: the carry of ADD_REG (R124). -/
def carryFlag (a b : Byte) : Byte := ((sum9 a b).extractLsb' 8 1).zeroExtend 8

/-- 1 if `a > b`, unsigned and strict, else 0: SUB_REG's flag, and SUBN_REG's with the operands swapped (R125, R127). -/
def greaterFlag (a b : Byte) : Byte := if a > b then 1#8 else 0#8

/-- `(a - b) mod 256` (R129). -/
def subResult (a b : Byte) : Byte := a - b

/-- `zext_8(a[0])`: SHR's flag (R126). -/
def lowBitFlag (a : Byte) : Byte := (a.extractLsb' 0 1).zeroExtend 8

/-- `a >> 1`, logical (R126). -/
def shrResult (a : Byte) : Byte := a >>> 1

/-- `zext_8(a[7])`: SHL's flag (R128). -/
def highBitFlag (a : Byte) : Byte := (a.extractLsb' 7 1).zeroExtend 8

/-- `(a << 1) mod 256` (R128). -/
def shlResult (a : Byte) : Byte := a <<< 1

/-- The value of `ALIAS_MODE` (00_scope.md R4): `latched` (44_alu.md R130, 92_eei_decisions.md D3; log entry 5). -/
def aliasMode : Config.AliasMode := .latched

/-- The two writes of a row that states the result first and the flag second (ADD_REG, R130): both are computed from the
operands as they stood before the instruction, and the flag is the write that remains when `X = 15`. -/
def State.resultThenFlag (s : State) (x y : RegIdx) (result flag : Byte → Byte → Byte) : State :=
  (s.setReg x (result (s.reg x) (s.reg y))).setReg Config.flagReg (flag (s.reg x) (s.reg y))

/-- The two writes of a row that states the flag first and the result second (SUB_REG, SHR, SUBN_REG, SHL, R130): the
result is the write that remains when `X = 15`. Under `latched` both are computed from the operands as they stood before
the instruction; under `sequential` the second assignment reads the register file again. -/
def State.flagThenResult (mode : Config.AliasMode) (s : State) (x y : RegIdx) (flag result : Byte → Byte → Byte) : State :=
  match mode with
  | .latched => (s.setReg Config.flagReg (flag (s.reg x) (s.reg y))).setReg x (result (s.reg x) (s.reg y))
  | .sequential =>
    let s1 := s.setReg Config.flagReg (flag (s.reg x) (s.reg y))
    s1.setReg x (result (s1.reg x) (s1.reg y))

end Sys2Proof.Machine
end

