-- ==== Sys2Proof/Machine/Alu.lean ====
section
/-! DEFINITION. The meanings of class 8 (44_alu.md): MOV, OR, AND, XOR, ADD_REG, SUB_REG, SHR, SUBN_REG, SHL. None can fault
and none mentions `pc`. The four that write the flag first are given under either reading of R130; the meaning takes the
spec's. -/

namespace Sys2Proof.Machine

/-- MOV: `x[X] <- x[Y]` (R120). -/
def execMov (x y : RegIdx) (s : State) : Host.Outcome State Fault Refusal := .next (s.setReg x (s.reg y))

/-- OR: `x[X] <- x[X] | x[Y]`, no flag effect (R121). -/
def execOr (x y : RegIdx) (s : State) : Host.Outcome State Fault Refusal := .next (s.setReg x (s.reg x ||| s.reg y))

/-- AND: `x[X] <- x[X] & x[Y]`, no flag effect (R122). -/
def execAnd (x y : RegIdx) (s : State) : Host.Outcome State Fault Refusal := .next (s.setReg x (s.reg x &&& s.reg y))

/-- XOR: `x[X] <- x[X] ^ x[Y]`, no flag effect (R123). -/
def execXor (x y : RegIdx) (s : State) : Host.Outcome State Fault Refusal := .next (s.setReg x (s.reg x ^^^ s.reg y))

/-- ADD_REG: the sum, then the carry (R124). -/
def execAddReg (x y : RegIdx) (s : State) : Host.Outcome State Fault Refusal :=
  .next (s.resultThenFlag x y addResult carryFlag)

/-- SUB_REG under a reading of R130: the strict comparison, then the difference (R125). -/
def State.subReg (mode : Config.AliasMode) (x y : RegIdx) (s : State) : State :=
  s.flagThenResult mode x y greaterFlag subResult

/-- SUB_REG (R125). -/
def execSubReg (x y : RegIdx) (s : State) : Host.Outcome State Fault Refusal := .next (s.subReg aliasMode x y)

/-- SHR under a reading of R130: bit 0, then the shift; `x[Y]` is neither read nor written (R126). -/
def State.shrReg (mode : Config.AliasMode) (x : RegIdx) (s : State) : State :=
  s.flagThenResult mode x x (fun a _ => lowBitFlag a) (fun a _ => shrResult a)

/-- SHR; the field `Y` is ignored (R126, R66). -/
def execShr (x _y : RegIdx) (s : State) : Host.Outcome State Fault Refusal := .next (s.shrReg aliasMode x)

/-- SUBN_REG under a reading of R130: the mirror of SUB_REG, the destination still `X` (R127). -/
def State.subnReg (mode : Config.AliasMode) (x y : RegIdx) (s : State) : State :=
  s.flagThenResult mode x y (fun a b => greaterFlag b a) (fun a b => subResult b a)

/-- SUBN_REG (R127). -/
def execSubnReg (x y : RegIdx) (s : State) : Host.Outcome State Fault Refusal := .next (s.subnReg aliasMode x y)

/-- SHL under a reading of R130: bit 7, then the shift; `x[Y]` is neither read nor written (R128). -/
def State.shlReg (mode : Config.AliasMode) (x : RegIdx) (s : State) : State :=
  s.flagThenResult mode x x (fun a _ => highBitFlag a) (fun a _ => shlResult a)

/-- SHL; the field `Y` is ignored (R128, R66). -/
def execShl (x _y : RegIdx) (s : State) : Host.Outcome State Fault Refusal := .next (s.shlReg aliasMode x)

end Sys2Proof.Machine
end

