-- ==== Sys2Proof/Machine/Control.lean ====
section
/-! DEFINITION. The meanings of JUMP, CALL, RETURN and JUMP_OFFSET (41_control_transfer.md). On entry `pc` is `p + 2`. A
target is not checked when the transfer executes (R94). -/

namespace Sys2Proof.Machine

/-- JUMP: `pc <- zext_16(NNN)` (R90). -/
def execJump (nnn : Addr12) (s : State) : Host.Outcome State Fault Refusal := .next (s.setPc (addrOperand nnn))

/-- CALL: `Push(pc)`, then the jump; with a full stack StackOverflow and nothing else (R91, 60_exceptions.md R161). -/
def execCall (nnn : Addr12) (s : State) : Host.Outcome State Fault Refusal :=
  match s.push s.pc with
  | .ok s1 => .next (s1.setPc (addrOperand nnn))
  | .error c => .next (s.raise c)

/-- RETURN: `pc <- Pop()`, the slot's full 16 bits; with an empty stack StackUnderflow and nothing else (R92,
60_exceptions.md R162). -/
def execRet (s : State) : Host.Outcome State Fault Refusal :=
  match s.pop with
  | .ok (v, s1) => .next (s1.setPc v)
  | .error c => .next (s.raise c)

/-- JUMP_OFFSET: `pc <- zext_16(x[0]) + zext_16(NNN)` (R93). -/
def execJumpOffset (nnn : Addr12) (s : State) : Host.Outcome State Fault Refusal := .next (s.setPc (offsetTarget s nnn))

end Sys2Proof.Machine
end

