-- ==== Sys2Proof/Machine/Immediate.lean ====
section
/-! DEFINITION. The meanings of LOAD_IMM, ADD_IMM and SET_INDEX (43_immediate_and_index.md). None can fault and none
mentions `pc`. -/

namespace Sys2Proof.Machine

/-- LOAD_IMM: `x[X] <- KK` (R110). -/
def execLoadImm (x : RegIdx) (kk : Byte) (s : State) : Host.Outcome State Fault Refusal := .next (s.setReg x kk)

/-- ADD_IMM: `x[X] <- (x[X] + KK) mod 256`; the flag register is not written as a flag (R111). -/
def execAddImm (x : RegIdx) (kk : Byte) (s : State) : Host.Outcome State Fault Refusal :=
  .next (s.setReg x (s.reg x + kk))

/-- SET_INDEX: `idx <- zext_16(NNN)` (R112). -/
def execSetIndex (nnn : Addr12) (s : State) : Host.Outcome State Fault Refusal := .next (s.setIdx (addrOperand nnn))

end Sys2Proof.Machine
end

