-- ==== Sys2Proof/Machine/Random.lean ====
section
/-! DEFINITION. The meaning of RANDOM_AND (45_random.md). -/

namespace Sys2Proof.Machine

/-- The effect of RANDOM_AND for a drawn byte `r`: `x[X] <- r & KK` (R140). -/
def State.maskInto (s : State) (x : RegIdx) (kk r : Byte) : State := s.setReg x (r &&& kk)

/-- RANDOM_AND: `r <- draw(); x[X] <- r & KK`. The draw is consumed whatever `KK` is (R140). -/
def execRandomAnd (x : RegIdx) (kk : Byte) (s : State) : Host.Outcome State Fault Refusal :=
  .next (s.countDraw.maskInto x kk s.rnd)

end Sys2Proof.Machine
end

