-- ==== Sys2Proof/Machine/Skip.lean ====
section
/-! DEFINITION. The meanings of the four conditional skips (42_skip.md). On entry `pc` is `p + 2`, so a taken skip gives
`p + 4`. No skip writes a register or can fault. -/

namespace Sys2Proof.Machine

/-- The execute part of a skip on a condition (R104). -/
def State.skipIf (s : State) (taken : Bool) : State := if taken then s.skipNext else s

/-- SKIP_EQ: `if x[X] = KK then pc <- pc + 2` (R100). -/
def execSkipEq (x : RegIdx) (kk : Byte) (s : State) : Host.Outcome State Fault Refusal := .next (s.skipIf (s.reg x == kk))

/-- SKIP_NEQ: `if x[X] != KK then pc <- pc + 2` (R101). -/
def execSkipNeq (x : RegIdx) (kk : Byte) (s : State) : Host.Outcome State Fault Refusal := .next (s.skipIf (s.reg x != kk))

/-- SKIP_EQ_REG: `if x[X] = x[Y] then pc <- pc + 2` (R102). -/
def execSkipEqReg (x y : RegIdx) (s : State) : Host.Outcome State Fault Refusal := .next (s.skipIf (s.reg x == s.reg y))

/-- SKIP_NEQ_REG: `if x[X] != x[Y] then pc <- pc + 2`; the field `D` is ignored (R103, R66). -/
def execSkipNeqReg (x y : RegIdx) (_d : Nibble) (s : State) : Host.Outcome State Fault Refusal :=
  .next (s.skipIf (s.reg x != s.reg y))

end Sys2Proof.Machine
end

