-- ==== Sys2Proof/Machine/System.lean ====
section
/-! DEFINITION. The meanings of HALT (40_executor_step.md R85), of the stubbed classes and of an unknown word
(46_stubbed_and_unknown.md). Each has a definition of its own. -/

namespace Sys2Proof.Machine

/-- HALT: `run <- HALTED` (R85). -/
def execHalt (s : State) : Host.Outcome State Fault Refusal := .next s.halt

/-- STUB_D: `raise NotImplemented`; `NNN` is ignored (R145, 60_exceptions.md R165). -/
def execStubD (_nnn : Addr12) (s : State) : Host.Outcome State Fault Refusal := .next (s.raise .notImplemented)

/-- STUB_E: `raise NotImplemented`; `NNN` is ignored (R145, 60_exceptions.md R165). -/
def execStubE (_nnn : Addr12) (s : State) : Host.Outcome State Fault Refusal := .next (s.raise .notImplemented)

/-- STUB_F: `raise NotImplemented`; `NNN` is ignored (R145, 60_exceptions.md R165). -/
def execStubF (_nnn : Addr12) (s : State) : Host.Outcome State Fault Refusal := .next (s.raise .notImplemented)

/-- A word that matches no row of the opcode map: `raise UnknownOpcode` (R147, 60_exceptions.md R164). -/
def execUnknown (s : State) : Host.Outcome State Fault Refusal := .next (s.raise .unknownOpcode)

end Sys2Proof.Machine
end

