-- ==== Sys2Proof/Machine/Dispatch.lean ====
section
/-! DEFINITION. The execute part of the step (40_executor_step.md R80 part 3): one arm per instruction, in the order of the
opcode map. `exec` is given the state AFTER the advance, in which `pc` is `p + 2` (R81; log entry 9). -/

namespace Sys2Proof.Machine

def exec (i : Instr) (s : State) : Host.Outcome State Fault Refusal :=
  match i with
  | .halt => Sys2Proof.Machine.execHalt s
  | .ret => Sys2Proof.Machine.execRet s
  | .jump nnn => Sys2Proof.Machine.execJump nnn s
  | .call nnn => Sys2Proof.Machine.execCall nnn s
  | .skipEq x kk => Sys2Proof.Machine.execSkipEq x kk s
  | .skipNeq x kk => Sys2Proof.Machine.execSkipNeq x kk s
  | .skipEqReg x y => Sys2Proof.Machine.execSkipEqReg x y s
  | .loadImm x kk => Sys2Proof.Machine.execLoadImm x kk s
  | .addImm x kk => Sys2Proof.Machine.execAddImm x kk s
  | .mov x y => Sys2Proof.Machine.execMov x y s
  | .or x y => Sys2Proof.Machine.execOr x y s
  | .and x y => Sys2Proof.Machine.execAnd x y s
  | .xor x y => Sys2Proof.Machine.execXor x y s
  | .addReg x y => Sys2Proof.Machine.execAddReg x y s
  | .subReg x y => Sys2Proof.Machine.execSubReg x y s
  | .shr x y => Sys2Proof.Machine.execShr x y s
  | .subnReg x y => Sys2Proof.Machine.execSubnReg x y s
  | .shl x y => Sys2Proof.Machine.execShl x y s
  | .skipNeqReg x y d => Sys2Proof.Machine.execSkipNeqReg x y d s
  | .setIndex nnn => Sys2Proof.Machine.execSetIndex nnn s
  | .jumpOffset nnn => Sys2Proof.Machine.execJumpOffset nnn s
  | .randomAnd x kk => Sys2Proof.Machine.execRandomAnd x kk s
  | .stubD nnn => Sys2Proof.Machine.execStubD nnn s
  | .stubE nnn => Sys2Proof.Machine.execStubE nnn s
  | .stubF nnn => Sys2Proof.Machine.execStubF nnn s

end Sys2Proof.Machine
end

