-- ==== Sys2Proof/Machine/RunLoop.lean ====
section
/-! DEFINITION. What the step does around `exec` (40_executor_step.md R80), and placing a word where the step fetches. -/

namespace Sys2Proof.Machine

/-- Parts 2 and 3 of the step for a fetched word: the advance, then the instruction or UnknownOpcode (R80, R81). -/
def State.execWord (s : State) (w : Word) : Host.Outcome State Fault Refusal :=
  match decode w with
  | .ok i => exec i s.advance
  | .error _ => execUnknown s.advance

/-- One step while RUNNING: the fetch or OutOfBoundsFetch, then the word (R80). -/
def State.runStep (s : State) : Host.Outcome State Fault Refusal :=
  match s.fetch with
  | .ok w => s.execWord w
  | .error c => .next (s.raise c)

/-- The state with the fetch address usable: a `pc` that no fetch succeeds at becomes the start address (log entry 4). -/
def State.withFetchablePc (s : State) : State :=
  if s.pc.toNat + 1 > Config.memSize - 1 then s.setPc Config.startAddr else s

/-- The state with a word stored at `pc`, the more significant byte first (20_memory.md R41). -/
def State.placeWord (s : State) (w : Word) : State :=
  (s.writeByte s.pc.toNat (w.extractLsb' 8 8)).writeByte (s.pc.toNat + 1) (w.extractLsb' 0 8)

/-- `run <- RUNNING` (10_state.md R31). -/
def State.setRunning (s : State) : State := { s with run := .running }

/-- What the host does for one word: it stores the word where the block fetches and starts the run (R30, R31,
70_reset_and_hazards.md R192; log entry 4). -/
def State.loadAndStart (s : State) (w : Word) : State := (s.withFetchablePc.placeWord w).setRunning

end Sys2Proof.Machine
end

