-- ==== Sys2Proof/Machine/Step.lean ====
section
/-! DEFINITION. One step of the block (40_executor_step.md R80), and the state in which the very next step runs a given
word. -/

namespace Sys2Proof.Machine

/-- While `run = RUNNING`, and only then, the block takes steps; in IDLE, HALTED and FAULTED it changes no state (R80). -/
def step (s : State) : Host.Outcome State Fault Refusal :=
  match s.run with
  | .running => s.runStep
  | .idle | .halted | .faulted => .next s.rest

/-- `s` with the word `w` (below `2 ^ nbits`) stored where `step` fetches, and the block started (log entry 4). -/
def State.withFetchWord (s : State) (nbits w : Nat) : State := s.loadAndStart (BitVec.ofNat 16 (w % 2 ^ nbits))

end Sys2Proof.Machine
end

