-- ==== Sys2Proof/Machine/HostPort.lean ====
section
/-! DEFINITION. The interface of the block to its host (10_state.md R27, R30 to R33): reset, load, start, and the status
and result outputs. A host action lands between two steps (00_scope.md R8). The step takes no host input. -/

namespace Sys2Proof.Machine

/-- The inputs of the block from the host (R27): reset (R33), the three loads (R30) and start (R31). -/
inductive HostMove where
  | reset
  | writeMem (addr : Nat) (v : Byte)
  | writeReg (r : RegIdx) (v : Byte)
  | writePc (v : Word)
  | start
  deriving DecidableEq, Repr

/-- Reset in any run state: every piece of the block's state at its reset value (R33, 70_reset_and_hazards.md R190). The
random supplier is outside the block (R26), so its count goes on (log entry 3). -/
def State.resetBlock (s : State) : State := { State.reset with drawn := s.drawn }

/-- A host write of one byte: an address above 4095 is not an address of anything (20_memory.md R40). -/
def State.hostWriteMem (s : State) (a : Nat) (v : Byte) : Host.Outcome State Fault Refusal :=
  if a < Config.memSize then .next (s.writeByte a v) else .fault (.noSuchAddress a)

/-- A host load, allowed while `run = IDLE` only (R30; refused otherwise, 92_eei_decisions.md D19). -/
def State.whileIdle (s : State) (load : Host.Outcome State Fault Refusal) : Host.Outcome State Fault Refusal :=
  match s.run with
  | .idle => load
  | .running | .halted | .faulted => .refused .hostAccessOutsideIdle

/-- `start`: IDLE becomes RUNNING; no effect in any other run state (R31). -/
def State.start (s : State) : State :=
  match s.run with
  | .idle => s.setRunning
  | .running | .halted | .faulted => s

/-- One action of the host. It cannot write `idx`, `stk`, `sp`, `run` or `cause` (R30, 92_eei_decisions.md D11). -/
def hostMove (m : HostMove) (s : State) : Host.Outcome State Fault Refusal :=
  match m with
  | .reset => .next s.resetBlock
  | .writeMem a v => s.whileIdle (s.hostWriteMem a v)
  | .writeReg r v => s.whileIdle (.next (s.setReg r v))
  | .writePc v => s.whileIdle (.next (s.setPc v))
  | .start => .next s.start

/-- The status output, always readable: `run` and `cause` as their codes (R32, R22, R23). -/
def State.status (s : State) : BitVec 2 × BitVec 3 := (s.run.code, s.cause.code)

/-- The result output: the register file, only after a normal end (R32, 40_executor_step.md R84). -/
def State.result (s : State) : Option (Vector Byte 16) :=
  match s.run with
  | .halted => some s.x
  | .idle | .running | .faulted => none

/-- What else the host may read when the block is not running (R32, R13). -/
structure Readout where
  x : Vector Byte 16
  pc : Word
  idx : Word
  sp : BitVec 5
  stk : Vector Word 16
  mem : Memory
  deriving DecidableEq, Repr

/-- The debugging read of R32: everything in IDLE, HALTED and FAULTED, nothing in RUNNING. -/
def State.readout (s : State) : Option Readout :=
  match s.run with
  | .running => none
  | .idle | .halted | .faulted =>
    some { x := s.x, pc := s.pc, idx := s.idx, sp := BitVec.ofNat 5 s.sp.val, stk := s.stk, mem := s.mem }

end Sys2Proof.Machine
end

