-- ==== Sys2Proof/Safety.lean ====
section
/-! DEFINITION. The terms in which statements speak: what a transition leaves unchanged, the register and program-counter
tables of 10_state.md R12 and R16, the saved return addresses as a list, the invariant of the reachable states, and what
counts as a successful end of a run (60_exceptions.md R172). -/

namespace Sys2Proof.Machine

/-! ### Frames -/

/-- One piece of the state outside memory: the rows of 10_state.md section 1, one stack slot and one register at a time,
and the model's own draw count. -/
inductive Part where
  | reg (r : RegIdx)
  | idx
  | pc
  | slot (j : Nibble)
  | sp
  | run
  | cause
  | drawn
  deriving DecidableEq, Repr

/-- The value of a piece of the state, as a number (its code for `run` and `cause`). -/
def State.part (s : State) : Part → Nat
  | .reg r => (s.reg r).toNat
  | .idx => s.idx.toNat
  | .pc => s.pc.toNat
  | .slot j => (s.slot j).toNat
  | .sp => s.sp.val
  | .run => s.run.code.toNat
  | .cause => s.cause.code.toNat
  | .drawn => s.drawn

/-- `t` is `s` but for the named pieces: every other piece has its value, and EVERY byte of memory reads as before. -/
def SameExcept (changed : List Part) (s t : State) : Prop :=
  (∀ p, p ∉ changed → t.part p = s.part p) ∧ ∀ a, t.memRead a = s.memRead a

/-! ### The tables of 10_state.md -/

/-- The registers an instruction may write (R12): its destination, and register 15 for the five flag-writing ones. -/
def writtenRegs : Instr → List RegIdx
  | .halt => []
  | .ret => []
  | .jump _ => []
  | .call _ => []
  | .skipEq _ _ => []
  | .skipNeq _ _ => []
  | .skipEqReg _ _ => []
  | .loadImm x _ => [x]
  | .addImm x _ => [x]
  | .mov x _ => [x]
  | .or x _ => [x]
  | .and x _ => [x]
  | .xor x _ => [x]
  | .addReg x _ => [x, 0xF#4]
  | .subReg x _ => [x, 0xF#4]
  | .shr x _ => [x, 0xF#4]
  | .subnReg x _ => [x, 0xF#4]
  | .shl x _ => [x, 0xF#4]
  | .skipNeqReg _ _ _ => []
  | .setIndex _ => []
  | .jumpOffset _ => []
  | .randomAnd x _ => [x]
  | .stubD _ => []
  | .stubE _ => []
  | .stubF _ => []

/-- The registers whose values an instruction's effect may depend on (R12). -/
def readRegs : Instr → List RegIdx
  | .halt => []
  | .ret => []
  | .jump _ => []
  | .call _ => []
  | .skipEq x _ => [x]
  | .skipNeq x _ => [x]
  | .skipEqReg x y => [x, y]
  | .loadImm _ _ => []
  | .addImm x _ => [x]
  | .mov _ y => [y]
  | .or x y => [x, y]
  | .and x y => [x, y]
  | .xor x y => [x, y]
  | .addReg x y => [x, y]
  | .subReg x y => [x, y]
  | .shr x _ => [x]
  | .subnReg x y => [x, y]
  | .shl x _ => [x]
  | .skipNeqReg x y _ => [x, y]
  | .setIndex _ => []
  | .jumpOffset _ => [0x0#4]
  | .randomAnd _ _ => []
  | .stubD _ => []
  | .stubE _ => []
  | .stubF _ => []

/-- The value that an instruction writes to the flag register as a side effect, from the operands `a = x[X]` and
`b = x[Y]` read before the instruction writes anything; `none` for an instruction that has no flag effect (the table of
R21, written over the numbers). -/
def flagWritten (s : State) : Instr → Option Nat
  | .addReg x y => some (if (s.reg x).toNat + (s.reg y).toNat > 255 then 1 else 0)
  | .subReg x y => some (if (s.reg x).toNat > (s.reg y).toNat then 1 else 0)
  | .subnReg x y => some (if (s.reg y).toNat > (s.reg x).toNat then 1 else 0)
  | .shr x _ => some ((s.reg x).toNat % 2)
  | .shl x _ => some ((s.reg x).toNat / 128)
  | .halt | .ret | .jump _ | .call _ | .skipEq _ _ | .skipNeq _ _ | .skipEqReg _ _ | .loadImm _ _ | .addImm _ _
  | .mov _ _ | .or _ _ | .and _ _ | .xor _ _ | .skipNeqReg _ _ _ | .setIndex _ | .jumpOffset _ | .randomAnd _ _
  | .stubD _ | .stubE _ | .stubF _ => none

/-- The fault that an instruction raises in a state (60_exceptions.md R160, causes 1, 2 and 5), or none. -/
def faultOf (s : State) : Instr → Option Cause
  | .call _ => if s.sp.val = 16 then some .stackOverflow else none
  | .ret => if s.sp.val = 0 then some .stackUnderflow else none
  | .stubD _ | .stubE _ | .stubF _ => some .notImplemented
  | .halt | .jump _ | .skipEq _ _ | .skipNeq _ _ | .skipEqReg _ _ | .loadImm _ _ | .addImm _ _ | .mov _ _ | .or _ _
  | .and _ _ | .xor _ _ | .addReg _ _ | .subReg _ _ | .shr _ _ | .subnReg _ _ | .shl _ _ | .skipNeqReg _ _ _
  | .setIndex _ | .jumpOffset _ | .randomAnd _ _ => none

/-- `pc` after the step that fetched `i` in the state `s` (`s.pc` is the address `a` of the instruction), as a number: the
table of 10_state.md R16. -/
def pcAfter (s : State) : Instr → Nat
  | .jump nnn => nnn.toNat
  | .call nnn => if s.sp.val = 16 then s.pc.toNat + 2 else nnn.toNat
  | .ret => if h : s.sp.val = 0 then s.pc.toNat + 2 else (s.stk[s.sp.val - 1]'(by omega)).toNat
  | .jumpOffset nnn => (s.reg 0x0#4).toNat + nnn.toNat
  | .skipEq x kk => if s.reg x = kk then s.pc.toNat + 4 else s.pc.toNat + 2
  | .skipNeq x kk => if s.reg x = kk then s.pc.toNat + 2 else s.pc.toNat + 4
  | .skipEqReg x y => if s.reg x = s.reg y then s.pc.toNat + 4 else s.pc.toNat + 2
  | .skipNeqReg x y _ => if s.reg x = s.reg y then s.pc.toNat + 2 else s.pc.toNat + 4
  | .halt | .loadImm _ _ | .addImm _ _ | .mov _ _ | .or _ _ | .and _ _ | .xor _ _ | .addReg _ _ | .subReg _ _ | .shr _ _
  | .subnReg _ _ | .shl _ _ | .setIndex _ | .randomAnd _ _ | .stubD _ | .stubE _ | .stubF _ => s.pc.toNat + 2

/-- The unknown words as 30_encoding.md R67 lists them, over the number `n` of the word: every class-0 word but 0x0000 and
0x00EE, `5xyD` with `D` from 1 to 15, `8xyD` with `D` in 8, 9, A, B, C, D, F. -/
abbrev UnknownWord (n : Nat) : Prop :=
  (n / 4096 = 0x0 ∧ n ≠ 0x0000 ∧ n ≠ 0x00EE) ∨ (n / 4096 = 0x5 ∧ n % 16 ≠ 0) ∨
    (n / 4096 = 0x8 ∧ n % 16 ∈ [0x8, 0x9, 0xA, 0xB, 0xC, 0xD, 0xF])

/-- The word `w` stands where the running block fetches next: `pc` is at most 4094 and the two bytes are those of `w`, the
more significant at `pc` (20_memory.md R41 to R43). -/
abbrev FetchesWord (s : State) (w : Word) : Prop :=
  s.run = .running ∧ s.pc.toNat ≤ 4094 ∧ s.memRead s.pc.toNat = some (w.extractLsb' 8 8) ∧
    s.memRead (s.pc.toNat + 1) = some (w.extractLsb' 0 8)

/-! ### The call stack as a list -/

/-- The return addresses saved now, the last pushed one first: the slots below `sp` (10_state.md R18, R19). -/
def State.saved (s : State) : List Word := (s.stk.toList.take s.sp.val).reverse

/-- Executing one CALL after another, stopping at none but a fault or a refusal of the model. -/
def execCalls : List Addr12 → State → Host.Outcome State Fault Refusal
  | [], s => .next s
  | n :: ns, s =>
    match exec (.call n) s with
    | .next t => execCalls ns t
    | .fault r => .fault r
    | .refused r => .refused r

/-! ### Noninterference -/

/-- The same state with another memory. -/
def State.withMem (s : State) (m : Memory) : State := { s with mem := m }

/-- The same state with another count of draws: another stretch of the supplier's bytes. -/
def State.withDrawn (s : State) (n : Nat) : State := { s with drawn := n }

/-- The same state with another register file. -/
def State.withRegs (s : State) (x : Vector Byte 16) : State := { s with x := x }

/-- A function of states under a next state; a fault or a refusal stays. -/
def mapNext (f : State → State) : Host.Outcome State Fault Refusal → Host.Outcome State Fault Refusal
  | .next t => .next (f t)
  | .fault r => .fault r
  | .refused r => .refused r

/-- The supplier's contract `RAND_SET` (00_scope.md R4, 45_random.md R140): every byte is 0 to 254. A claim may take it as
a named hypothesis; the model never builds it in (93_implementation_defined.md U3). -/
def SupplierKeepsContract : Prop := ∀ n, (Config.randomByte n).toNat ≤ 254

/-! ### The invariant and the reachable states -/

/-- What holds of every reachable state. -/
structure State.Inv (s : State) : Prop where
  /-- `cause` is none whenever `run` is not FAULTED, and one of the five whenever it is (10_state.md R23). -/
  cause_iff : s.cause ≠ .none ↔ s.run = .faulted
  /-- Bits 15 to 12 of `idx` are 0 (10_state.md R14). -/
  idx_low : s.idx.toNat ≤ 4095
  /-- A slot holds 0 or an address that a CALL pushed, at most 4096 (41_control_transfer.md R91). -/
  slot_low : ∀ j, (s.slot j).toNat ≤ 4096
  /-- Memory keeps its canonical form, inside the 4096 addresses (10_state.md R25). -/
  mem_wf : s.mem.wf
  /-- A run that has halted left `pc` just after a fetched word (40_executor_step.md R85). -/
  halted_pc : s.run = .halted → 2 ≤ s.pc.toNat ∧ s.pc.toNat ≤ 4096
  /-- So did a run that has faulted in the execute part (60_exceptions.md R166). -/
  faulted_pc : s.run = .faulted → s.cause ≠ .outOfBoundsFetch → 2 ≤ s.pc.toNat ∧ s.pc.toNat ≤ 4096
  /-- A run that has faulted in the fetch left `pc` at an address that no fetch succeeds at (60_exceptions.md R163). -/
  faulted_fetch : s.cause = .outOfBoundsFetch → 4095 ≤ s.pc.toNat
  /-- A run ends with StackOverflow only with a full stack, with StackUnderflow only with an empty one (R161, R162). -/
  overflow_sp : s.cause = .stackOverflow → s.sp.val = 16
  underflow_sp : s.cause = .stackUnderflow → s.sp.val = 0
  /-- Before `start` the pieces that the host cannot write are at their reset values (10_state.md R30). -/
  idle_sp : s.run = .idle → s.sp.val = 0
  idle_idx : s.run = .idle → s.idx = 0x0000#16
  idle_slot : s.run = .idle → ∀ j, s.slot j = 0x0000#16

/-- The states that the block and its host can reach: reset, then steps and host actions in any order (10_state.md R33:
nothing else changes state). -/
inductive Reachable : State → Prop where
  | reset : Reachable State.reset
  | step (s t : State) : Reachable s → step s = .next t → Reachable t
  | host (m : HostMove) (s t : State) : Reachable s → hostMove m s = .next t → Reachable t

end Sys2Proof.Machine
end

