-- ==== Sys2Proof/Certificates/Slice0/Obligations.lean ====
section
/-! DEFINITION. The statements for the provers. Each docstring names the rule of spec/ that the statement formalises, or, for
a derived one, the decision or the log entry it rests on. Where a statement is about an instruction, `s` is the state that
`exec` is given: the advance has been made (40_executor_step.md R81), so `s.pc = p + 2` for the address `p` that the
instruction was fetched from. `SameExcept` is the frame: every other register, slot and special register, and every byte
of memory, as before. -/

open Sys2Proof Sys2Proof.Machine

/-! ### Encoding -/

/-- R61: the six fields of a word, as numbers, the two overlaps, and the fields in terms of the two bytes. -/
def Obligations.FieldsAreTheBitsOfTheWord : Prop :=
  (∀ w : Word, (fields w).c.toNat = w.toNat / 4096 ∧ (fields w).x.toNat = w.toNat / 256 % 16 ∧
    (fields w).y.toNat = w.toNat / 16 % 16 ∧ (fields w).d.toNat = w.toNat % 16 ∧
    (fields w).nnn.toNat = w.toNat % 4096 ∧ (fields w).kk.toNat = w.toNat % 256 ∧
    (fields w).nnn = (fields w).x ++ (fields w).y ++ (fields w).d ∧ (fields w).kk = (fields w).y ++ (fields w).d) ∧
  ∀ hi lo : Byte, (fields (wordOfBytes hi lo)).c.toNat = hi.toNat / 16 ∧
    (fields (wordOfBytes hi lo)).x.toNat = hi.toNat % 16 ∧ (fields (wordOfBytes hi lo)).y.toNat = lo.toNat / 16 ∧
    (fields (wordOfBytes hi lo)).d.toNat = lo.toNat % 16 ∧ (fields (wordOfBytes hi lo)).kk = lo

/-- Derived from R65 and R60: no bit of an encoding is dropped; the word, and the two bytes, of EVERY instruction decode to
it, with every operand at every value. -/
def Obligations.EncodedInstructionDecodesToItself : Prop :=
  ∀ i : Instr, decode (encode i) = .ok i ∧ ∀ rest, decodeBytes (encodeBytes i ++ rest) = .ok (i, rest)

/-- Derived from R64 and R65: each word has one meaning, and the term holds all of its bits, the ignored fields too (log
entry 10). -/
def Obligations.DecodedWordEncodesToItself : Prop :=
  ∀ (w : Word) (i : Instr), decode w = .ok i → encode i = w

/-- Derived from R64 and R65 (`w & mask = match`): of the 25 rows exactly the decoded instruction's row selects a word, no
row selects an unknown word, and no two rows of the map overlap. -/
def Obligations.EveryWordSelectsItsOneRow : Prop :=
  (∀ w : Word, opcodeMap.filter (fun r => r.selects w) =
    match decode w with
    | .ok i => [i.row]
    | .error _ => []) ∧
  opcodeMap.Pairwise fun r q => ∀ w : Word, ¬(r.selects w = true ∧ q.selects w = true)

/-- Derived from R67 and R147, their list of unknown words written over numbers (`UnknownWord`): the decoder rejects, by
name, exactly these words. -/
def Obligations.DecoderRejectsExactlyTheUnknownWords : Prop :=
  ∀ w : Word, (decode w = .error (.unknownOpcode w) ↔ UnknownWord w.toNat) ∧
    (¬UnknownWord w.toNat → ∃ i, decode w = .ok i)

/-- Derived from 95_test_vectors.md V-DEC: words written out from the encodings of R65 and what they stand for. -/
def Obligations.WrittenOutWordsDecode : Prop :=
  decode 0x8014#16 = .ok (.addReg 0x0#4 0x1#4) ∧ decode 0x2100#16 = .ok (.call 0x100#12) ∧
  decode 0x00EE#16 = .ok .ret ∧ decode 0x0000#16 = .ok .halt ∧ decode 0xAFFF#16 = .ok (.setIndex 0xFFF#12) ∧
  decode 0x3A7B#16 = .ok (.skipEq 0xA#4 0x7B#8) ∧ decode 0x9CD5#16 = .ok (.skipNeqReg 0xC#4 0xD#4 0x5#4) ∧
  decode 0x8ABE#16 = .ok (.shl 0xA#4 0xB#4) ∧ decode 0xC30F#16 = .ok (.randomAnd 0x3#4 0x0F#8) ∧
  decode 0xE09E#16 = .ok (.stubE 0x09E#12) ∧ decode 0x5CD5#16 = .error (.unknownOpcode 0x5CD5#16) ∧
  decode 0x8ABF#16 = .error (.unknownOpcode 0x8ABF#16) ∧ decode 0x00E0#16 = .error (.unknownOpcode 0x00E0#16) ∧
  decode 0x01EE#16 = .error (.unknownOpcode 0x01EE#16) ∧
  decode (wordOfBytes 0x14#8 0x80#8) = .ok (.jump 0x480#12)

/-- Derived from R66 (which rests on 92_eei_decisions.md D4 and D5): the decoder accepts every value of an ignored field,
and an instruction acts as its assembled form does, so the ignored field has no effect; SKIP_EQ_REG's `D` must be 0. -/
def Obligations.IgnoredFieldsSelectAndDoNothing : Prop :=
  (∀ (i : Instr) (s : State), exec i s = exec i.assembled s) ∧
  (∀ x y : RegIdx, decode (wordOfNibbles 0x8#4 x y 0x6#4) = .ok (.shr x y) ∧
    decode (wordOfNibbles 0x8#4 x y 0xE#4) = .ok (.shl x y)) ∧
  (∀ (x y : RegIdx) (d : Nibble), decode (wordOfNibbles 0x9#4 x y d) = .ok (.skipNeqReg x y d) ∧
    (decode (wordOfNibbles 0x5#4 x y d) = .ok (.skipEqReg x y) ↔ d = 0x0#4)) ∧
  ∀ (a b : Addr12) (s : State), exec (.stubD a) s = exec (.stubD b) s ∧ exec (.stubE a) s = exec (.stubE b) s ∧
    exec (.stubF a) s = exec (.stubF b) s

/-! ### The fetch and the step -/

/-- R43: the bound test on the mathematical sum `p + 1`. A fetch succeeds exactly at 0 to 4094; at 4095 and above the step
raises OutOfBoundsFetch, `pc` is not advanced and nothing but the run state and the cause changes. -/
def Obligations.FetchOutOfBoundsRaises : Prop :=
  ∀ s : State, ((∃ w, s.fetch = .ok w) ↔ s.pc.toNat ≤ 4094) ∧
    (s.run = .running → s.pc.toNat + 1 > 4095 → ∃ t, step s = .next t ∧ t.run = .faulted ∧
      t.cause = .outOfBoundsFetch ∧ t.pc = s.pc ∧ SameExcept [.run, .cause] s t)

/-- R42: the fetch is the two byte reads in big-endian order (R41), they change nothing, and they are the only memory accesses of
a step: with any other memory that holds the same two bytes at `pc` and `pc + 1` the step does the same. -/
def Obligations.StepReadsOnlyTheTwoFetchedBytes : Prop :=
  (∀ s : State, s.pc.toNat ≤ 4094 → ∃ hi lo w, s.memRead s.pc.toNat = some hi ∧
    s.memRead (s.pc.toNat + 1) = some lo ∧ s.fetch = .ok w ∧ w.toNat = 256 * hi.toNat + lo.toNat) ∧
  (∀ (s t : State), step s = .next t → ∀ a, t.memRead a = s.memRead a) ∧
  ∀ (s : State) (m : Memory), (s.withMem m).memRead s.pc.toNat = s.memRead s.pc.toNat →
    (s.withMem m).memRead (s.pc.toNat + 1) = s.memRead (s.pc.toNat + 1) →
    step (s.withMem m) = mapNext (fun t => t.withMem m) (step s)

/-- Derived from R80 and R81: when the two bytes at `pc` decode to an instruction, the step is `exec` of it at the state in
which only `pc` has been advanced by 2. -/
def Obligations.StepRunsTheDecodedInstruction : Prop :=
  ∀ (s : State) (hi lo : Byte) (i : Instr), s.run = .running → s.pc.toNat ≤ 4094 →
    s.memRead s.pc.toNat = some hi → s.memRead (s.pc.toNat + 1) = some lo →
    decode (wordOfBytes hi lo) = .ok i → step s = exec i (s.setPc (s.pc + 2#16))

/-- Derived from R164 (the code is 92_eei_decisions.md D7, the state after the fault D8): a step that fetched one of the
unknown words raises UnknownOpcode (code 4) after the advance, and nothing else changes. -/
def Obligations.UnknownWordRaisesUnknownOpcode : Prop :=
  ∀ (s : State) (w : Word), FetchesWord s w → UnknownWord w.toNat → ∃ t, step s = .next t ∧ t.run = .faulted ∧
    t.cause = .unknownOpcode ∧ t.cause.code.toNat = 4 ∧ t.pc = s.pc + 2#16 ∧ SameExcept [.pc, .run, .cause] s t

/-- Derived from R16 and R81 (JUMP_OFFSET's whole sum rests on 92_eei_decisions.md D14, HALT's `a + 2` on D9): where every
step leaves `pc`: each instruction's line of the table, an unknown word's `a + 2`, and `a` for OutOfBoundsFetch. -/
def Obligations.PcAfterEveryStep : Prop :=
  (∀ (s : State) (w : Word) (i : Instr), FetchesWord s w → decode w = .ok i →
    ∃ t, step s = .next t ∧ t.pc.toNat = pcAfter s i ∧ (i = .halt → t.run = .halted)) ∧
  (∀ (s : State) (w : Word), FetchesWord s w → UnknownWord w.toNat →
    ∃ t, step s = .next t ∧ t.pc.toNat = s.pc.toNat + 2) ∧
  ∀ s : State, s.run = .running → s.pc.toNat ≥ 4095 → ∃ t, step s = .next t ∧ t.cause = .outOfBoundsFetch ∧ t.pc = s.pc

/-- Derived from R80 and R204: every state has a next state (outside RUNNING, by log entry 1, the state itself), and a step
from RUNNING completes in RUNNING or HALTED with the cause as it was, or ends in FAULTED with a cause. -/
def Obligations.EveryStateHasANextState : Prop :=
  ∀ s : State, ∃ t, step s = .next t ∧ (s.run ≠ .running → t = s) ∧
    (s.run = .running → (t.run = .running ∧ t.cause = s.cause) ∨ (t.run = .halted ∧ t.cause = s.cause) ∨
      (t.run = .faulted ∧ t.cause ≠ .none))

/-- Derived from R160 and R169 (the codes are 92_eei_decisions.md D7): a step from RUNNING ends in FAULTED exactly when the
fetch is out of bounds, or the word is unknown, or the instruction faults in this state, and the cause says which. -/
def Obligations.FaultsAreExactlyTheFive : Prop :=
  (∀ (s t : State), s.run = .running → s.pc.toNat ≥ 4095 → step s = .next t →
    t.run = .faulted ∧ t.cause = .outOfBoundsFetch) ∧
  (∀ (s t : State) (w : Word), FetchesWord s w → UnknownWord w.toNat → step s = .next t →
    t.run = .faulted ∧ t.cause = .unknownOpcode) ∧
  (∀ (s t : State) (w : Word) (i : Instr), FetchesWord s w → decode w = .ok i → step s = .next t →
    (t.run = .faulted ↔ faultOf s i ≠ none) ∧ ∀ c, faultOf s i = some c → t.cause = c) ∧
  Cause.stackOverflow.code.toNat = 1 ∧ Cause.stackUnderflow.code.toNat = 2 ∧ Cause.outOfBoundsFetch.code.toNat = 3 ∧
    Cause.unknownOpcode.code.toNat = 4 ∧ Cause.notImplemented.code.toNat = 5

/-- Derived from R166 and R167 (92_eei_decisions.md D8): faults are precise; a faulting step changes the run state, the
cause and, except for OutOfBoundsFetch, advances `pc` by 2, and nothing else. -/
def Obligations.FaultsArePrecise : Prop :=
  ∀ s t : State, s.run = .running → step s = .next t → t.run = .faulted →
    t.pc = (if t.cause = .outOfBoundsFetch then s.pc else s.pc + 2#16) ∧ SameExcept [.pc, .run, .cause] s t

/-- Derived from R170: FAULTED and HALTED are absorbing: no number of steps and no host action but reset changes the state,
and reset discards it. That a step answers the state itself there is the model's log entry 1, that the host's writes answer
no next state and `start` has no effect is log entry 7 (92_eei_decisions.md D10, D19), and that the draw count, which is
outside the block, goes on at reset is log entry 3. -/
def Obligations.EndedRunsAreFrozenUntilReset : Prop :=
  ∀ s : State, s.run = .faulted ∨ s.run = .halted →
    (∀ k, Host.Core.run Sys2Proof.core k s = .next s) ∧
    (∀ (m : HostMove) (t : State), m ≠ .reset → hostMove m s = .next t → t = s) ∧
    ∃ t, hostMove .reset s = .next t ∧ t = State.reset.withDrawn s.drawn

/-! ### HALT and control transfer -/

/-- Derived from R85 (`pc` after HALT is 92_eei_decisions.md D9): exactly the word 0x0000 is HALT; it sets `run` to HALTED
and changes nothing else. -/
def Obligations.HaltEndsTheRun : Prop :=
  (∀ w : Word, decode w = .ok .halt ↔ w = 0x0000#16) ∧
  ∀ (s : State) (p : Word), s.pc = p + 2#16 → ∃ t, exec .halt s = .next t ∧ t.run = .halted ∧ t.pc = p + 2#16 ∧
    SameExcept [.run] s t

/-- R90: JUMP sets `pc` to `NNN` and changes nothing else; a jump to its own address is an endless loop; the target is
checked by the next step's fetch only. -/
def Obligations.JumpSetsPc : Prop :=
  (∀ w : Word, w &&& 0xF000#16 = 0x1000#16 → decode w = .ok (.jump (w.extractLsb' 0 12))) ∧
  (∀ (nnn : Addr12) (s : State), ∃ t, exec (.jump nnn) s = .next t ∧ t.pc.toNat = nnn.toNat ∧ SameExcept [.pc] s t) ∧
  (∀ (s : State) (nnn : Addr12), FetchesWord s (wordA 0x1#4 nnn) → s.pc.toNat = nnn.toNat → step s = .next s) ∧
  ∀ (s t u : State), FetchesWord s 0x1FFF#16 → step s = .next t → step t = .next u →
    t.run = .running ∧ t.pc.toNat = 4095 ∧ u.cause = .outOfBoundsFetch ∧ u.pc = t.pc

/-- Derived from R91 and R161 (the code is 92_eei_decisions.md D7, the state after the fault D8): CALL pushes `p + 2`, the
address of the next instruction, and jumps; with a full stack it raises StackOverflow (code 1) and changes nothing else. -/
def Obligations.CallPushesAndJumps : Prop :=
  (∀ w : Word, w &&& 0xF000#16 = 0x2000#16 → decode w = .ok (.call (w.extractLsb' 0 12))) ∧
  (∀ (nnn : Addr12) (s : State) (p : Word) (j : Nibble), s.pc = p + 2#16 → s.sp.val = j.toNat →
    ∃ t, exec (.call nnn) s = .next t ∧ t.slot j = p + 2#16 ∧ t.sp.val = s.sp.val + 1 ∧ t.pc.toNat = nnn.toNat ∧
      SameExcept [.slot j, .sp, .pc] s t) ∧
  ∀ (nnn : Addr12) (s : State) (p : Word), s.pc = p + 2#16 → s.sp.val = 16 →
    ∃ t, exec (.call nnn) s = .next t ∧ t.run = .faulted ∧ t.cause = .stackOverflow ∧ t.cause.code.toNat = 1 ∧
      t.pc = p + 2#16 ∧ t.sp.val = 16 ∧ SameExcept [.run, .cause] s t

/-- Derived from R92 and R162 (that the popped slot keeps its contents is 92_eei_decisions.md D16, the code D7, the state
after the fault D8): RETURN sets `pc` to the popped slot's full 16 bits and leaves the slot's contents; with an empty stack
it raises StackUnderflow (code 2) and changes nothing else. Exactly the word 0x00EE is RETURN. -/
def Obligations.ReturnPopsIntoPc : Prop :=
  (∀ w : Word, decode w = .ok .ret ↔ w = 0x00EE#16) ∧
  (∀ (s : State) (j : Nibble), s.sp.val = j.toNat + 1 →
    ∃ t, exec .ret s = .next t ∧ t.pc = s.slot j ∧ t.sp.val = j.toNat ∧ t.slot j = s.slot j ∧
      SameExcept [.sp, .pc] s t) ∧
  ∀ (s : State) (p : Word), s.pc = p + 2#16 → s.sp.val = 0 →
    ∃ t, exec .ret s = .next t ∧ t.run = .faulted ∧ t.cause = .stackUnderflow ∧ t.cause.code.toNat = 2 ∧
      t.pc = p + 2#16 ∧ t.sp.val = 0 ∧ SameExcept [.run, .cause] s t

/-- Derived from R93 (the whole sum is 92_eei_decisions.md D14): JUMP_OFFSET sets `pc` to `x[0] + NNN`, at most 0x10FE,
neither masked nor wrapped, and changes nothing else. -/
def Obligations.JumpOffsetSetsPcToTheWholeSum : Prop :=
  (∀ w : Word, w &&& 0xF000#16 = 0xB000#16 → decode w = .ok (.jumpOffset (w.extractLsb' 0 12))) ∧
  ∀ (nnn : Addr12) (s : State), ∃ t, exec (.jumpOffset nnn) s = .next t ∧
    t.pc.toNat = (s.reg 0x0#4).toNat + nnn.toNat ∧ t.pc.toNat ≤ 0x10FE ∧ SameExcept [.pc] s t

/-! ### Skips -/

/-- R100: SKIP_EQ leaves `pc` at `p + 4` if `x[X] = KK`, else at `p + 2`; nothing else changes. -/
def Obligations.SkipEqSkipsOnEqual : Prop :=
  (∀ w : Word, w &&& 0xF000#16 = 0x3000#16 → decode w = .ok (.skipEq (w.extractLsb' 8 4) (w.extractLsb' 0 8))) ∧
  ∀ (x : RegIdx) (kk : Byte) (s : State) (p : Word), s.pc = p + 2#16 → ∃ t, exec (.skipEq x kk) s = .next t ∧
    t.pc = (if s.reg x = kk then p + 4#16 else p + 2#16) ∧ SameExcept [.pc] s t

/-- R101: SKIP_NEQ leaves `pc` at `p + 4` if `x[X]` differs from `KK`, else at `p + 2`; nothing else changes. -/
def Obligations.SkipNeqSkipsOnUnequal : Prop :=
  (∀ w : Word, w &&& 0xF000#16 = 0x4000#16 → decode w = .ok (.skipNeq (w.extractLsb' 8 4) (w.extractLsb' 0 8))) ∧
  ∀ (x : RegIdx) (kk : Byte) (s : State) (p : Word), s.pc = p + 2#16 → ∃ t, exec (.skipNeq x kk) s = .next t ∧
    t.pc = (if s.reg x = kk then p + 2#16 else p + 4#16) ∧ SameExcept [.pc] s t

/-- R102: SKIP_EQ_REG leaves `pc` at `p + 4` if the two registers are equal, else at `p + 2`; nothing else changes; a class-5
word with `D` from 1 to 15 raises UnknownOpcode. -/
def Obligations.SkipEqRegSkipsOnEqual : Prop :=
  (∀ w : Word, w &&& 0xF00F#16 = 0x5000#16 → decode w = .ok (.skipEqReg (w.extractLsb' 8 4) (w.extractLsb' 4 4))) ∧
  (∀ (x y : RegIdx) (s : State) (p : Word), s.pc = p + 2#16 → ∃ t, exec (.skipEqReg x y) s = .next t ∧
    t.pc = (if s.reg x = s.reg y then p + 4#16 else p + 2#16) ∧ SameExcept [.pc] s t) ∧
  ∀ (x y : RegIdx) (d : Nibble) (s : State), d ≠ 0x0#4 → FetchesWord s (wordOfNibbles 0x5#4 x y d) →
    ∃ t, step s = .next t ∧ t.run = .faulted ∧ t.cause = .unknownOpcode

/-- Derived from R103 (that `D` is ignored is 92_eei_decisions.md D5): SKIP_NEQ_REG leaves `pc` at `p + 4` if the two
registers differ, else at `p + 2`, for every `D`; nothing else changes. -/
def Obligations.SkipNeqRegSkipsOnUnequal : Prop :=
  (∀ w : Word, w &&& 0xF000#16 = 0x9000#16 →
    decode w = .ok (.skipNeqReg (w.extractLsb' 8 4) (w.extractLsb' 4 4) (w.extractLsb' 0 4))) ∧
  ∀ (x y : RegIdx) (d : Nibble) (s : State) (p : Word), s.pc = p + 2#16 → ∃ t, exec (.skipNeqReg x y d) s = .next t ∧
    t.pc = (if s.reg x = s.reg y then p + 2#16 else p + 4#16) ∧ SameExcept [.pc] s t

/-! ### Immediates and the index register -/

/-- R110: LOAD_IMM writes `KK` to `x[X]`, register 15 like any other, and nothing else. -/
def Obligations.LoadImmWritesTheImmediate : Prop :=
  (∀ w : Word, w &&& 0xF000#16 = 0x6000#16 → decode w = .ok (.loadImm (w.extractLsb' 8 4) (w.extractLsb' 0 8))) ∧
  ∀ (x : RegIdx) (kk : Byte) (s : State) (p : Word), s.pc = p + 2#16 → ∃ t, exec (.loadImm x kk) s = .next t ∧
    t.reg x = kk ∧ t.pc = p + 2#16 ∧ SameExcept [.reg x] s t

/-- R111: ADD_IMM writes `(x[X] + KK) mod 256` to `x[X]` and nothing else: with `X` not 15 the flag register keeps its
value whether or not the sum exceeds 255, and with `X = 15` it holds the sum as a result. -/
def Obligations.AddImmWrapsAndSetsNoFlag : Prop :=
  (∀ w : Word, w &&& 0xF000#16 = 0x7000#16 → decode w = .ok (.addImm (w.extractLsb' 8 4) (w.extractLsb' 0 8))) ∧
  ∀ (x : RegIdx) (kk : Byte) (s : State) (p : Word), s.pc = p + 2#16 → ∃ t, exec (.addImm x kk) s = .next t ∧
    (t.reg x).toNat = ((s.reg x).toNat + kk.toNat) % 256 ∧ (x ≠ 0xF#4 → t.reg 0xF#4 = s.reg 0xF#4) ∧ t.pc = p + 2#16 ∧
    SameExcept [.reg x] s t

/-- R112: SET_INDEX writes `NNN`, zero-extended, to `idx`, so bits 15 to 12 become 0, and nothing else. -/
def Obligations.SetIndexWritesIdx : Prop :=
  (∀ w : Word, w &&& 0xF000#16 = 0xA000#16 → decode w = .ok (.setIndex (w.extractLsb' 0 12))) ∧
  ∀ (nnn : Addr12) (s : State) (p : Word), s.pc = p + 2#16 → ∃ t, exec (.setIndex nnn) s = .next t ∧
    t.idx.toNat = nnn.toNat ∧ t.idx.extractLsb' 12 4 = 0x0#4 ∧ t.pc = p + 2#16 ∧ SameExcept [.idx] s t

/-! ### Class 8 -/

/-- R120: MOV writes `x[Y]` to `x[X]` and nothing else. -/
def Obligations.MovCopiesTheRegister : Prop :=
  (∀ w : Word, w &&& 0xF00F#16 = 0x8000#16 → decode w = .ok (.mov (w.extractLsb' 8 4) (w.extractLsb' 4 4))) ∧
  ∀ (x y : RegIdx) (s : State) (p : Word), s.pc = p + 2#16 → ∃ t, exec (.mov x y) s = .next t ∧ t.reg x = s.reg y ∧
    t.pc = p + 2#16 ∧ SameExcept [.reg x] s t

/-- R121, R122, R123: OR, AND and XOR write the bitwise result to `x[X]`, bit by bit, and nothing else: the flag register
is neither set nor cleared; `X = Y` changes nothing under OR and AND and clears the register under XOR. -/
def Obligations.BitwiseOperationsSetNoFlag : Prop :=
  (∀ w : Word, w &&& 0xF00F#16 = 0x8001#16 → decode w = .ok (.or (w.extractLsb' 8 4) (w.extractLsb' 4 4))) ∧
  (∀ w : Word, w &&& 0xF00F#16 = 0x8002#16 → decode w = .ok (.and (w.extractLsb' 8 4) (w.extractLsb' 4 4))) ∧
  (∀ w : Word, w &&& 0xF00F#16 = 0x8003#16 → decode w = .ok (.xor (w.extractLsb' 8 4) (w.extractLsb' 4 4))) ∧
  ∀ (x y : RegIdx) (s : State) (p : Word), s.pc = p + 2#16 →
    (∃ t, exec (.or x y) s = .next t ∧
      (∀ k, (t.reg x).getLsbD k = ((s.reg x).getLsbD k || (s.reg y).getLsbD k)) ∧
      (x = y → t.reg x = s.reg x) ∧ t.pc = p + 2#16 ∧ SameExcept [.reg x] s t) ∧
    (∃ t, exec (.and x y) s = .next t ∧
      (∀ k, (t.reg x).getLsbD k = ((s.reg x).getLsbD k && (s.reg y).getLsbD k)) ∧
      (x = y → t.reg x = s.reg x) ∧ t.pc = p + 2#16 ∧ SameExcept [.reg x] s t) ∧
    ∃ t, exec (.xor x y) s = .next t ∧
      (∀ k, (t.reg x).getLsbD k = ((s.reg x).getLsbD k != (s.reg y).getLsbD k)) ∧
      (x = y → t.reg x = 0x00#8) ∧ t.pc = p + 2#16 ∧ SameExcept [.reg x] s t

/-- R124: ADD_REG writes the sum modulo 256 to `x[X]`, then the carry to `x[15]`: 1 if `a + b > 255`, else 0, whatever the
flag was; with `X = 15` the carry remains and the sum is lost; with `Y = 15` the old value of `x[15]` is added. -/
def Obligations.AddRegGivesSumAndCarry : Prop :=
  (∀ w : Word, w &&& 0xF00F#16 = 0x8004#16 → decode w = .ok (.addReg (w.extractLsb' 8 4) (w.extractLsb' 4 4))) ∧
  ∀ (x y : RegIdx) (s : State) (p : Word), s.pc = p + 2#16 → ∃ t, exec (.addReg x y) s = .next t ∧
    (x ≠ 0xF#4 → (t.reg x).toNat = ((s.reg x).toNat + (s.reg y).toNat) % 256) ∧
    (t.reg 0xF#4).toNat = (if (s.reg x).toNat + (s.reg y).toNat > 255 then 1 else 0) ∧ t.pc = p + 2#16 ∧
    SameExcept [.reg x, .reg 0xF#4] s t

/-- Derived from R125 and, for `X = 15` and `Y = 15`, from R130's `latched` (92_eei_decisions.md D3, log entry 5): SUB_REG
writes 1 to `x[15]` if `a > b` strictly, else 0, then `(a - b) mod 256` to `x[X]`; with `X = 15` the difference remains. -/
def Obligations.SubRegGivesDifferenceAndStrictFlag : Prop :=
  (∀ w : Word, w &&& 0xF00F#16 = 0x8005#16 → decode w = .ok (.subReg (w.extractLsb' 8 4) (w.extractLsb' 4 4))) ∧
  ∀ (x y : RegIdx) (s : State) (p : Word), s.pc = p + 2#16 → ∃ t, exec (.subReg x y) s = .next t ∧
    (t.reg x).toNat = ((s.reg x).toNat + 256 - (s.reg y).toNat) % 256 ∧
    (x ≠ 0xF#4 → (t.reg 0xF#4).toNat = if (s.reg x).toNat > (s.reg y).toNat then 1 else 0) ∧ t.pc = p + 2#16 ∧
    SameExcept [.reg x, .reg 0xF#4] s t

/-- Derived from R126 and, for `X = 15`, from R130's `latched` (92_eei_decisions.md D3, log entry 5): SHR writes bit 0 of the
value before the shift to `x[15]`, then the value shifted right by one to `x[X]`; `Y` is ignored. -/
def Obligations.ShrShiftsRightAndKeepsTheLowBit : Prop :=
  (∀ w : Word, w &&& 0xF00F#16 = 0x8006#16 → decode w = .ok (.shr (w.extractLsb' 8 4) (w.extractLsb' 4 4))) ∧
  ∀ (x y : RegIdx) (s : State) (p : Word), s.pc = p + 2#16 → ∃ t, exec (.shr x y) s = .next t ∧
    (t.reg x).toNat = (s.reg x).toNat / 2 ∧ (x ≠ 0xF#4 → (t.reg 0xF#4).toNat = (s.reg x).toNat % 2) ∧
    t.pc = p + 2#16 ∧ SameExcept [.reg x, .reg 0xF#4] s t

/-- Derived from R127 and, for `X = 15` and `Y = 15`, from R130's `latched` (92_eei_decisions.md D3, log entry 5): SUBN_REG
writes 1 to `x[15]` if `b > a` strictly, else 0, then `(b - a) mod 256` to `x[X]`. -/
def Obligations.SubnRegGivesMirroredDifference : Prop :=
  (∀ w : Word, w &&& 0xF00F#16 = 0x8007#16 → decode w = .ok (.subnReg (w.extractLsb' 8 4) (w.extractLsb' 4 4))) ∧
  ∀ (x y : RegIdx) (s : State) (p : Word), s.pc = p + 2#16 → ∃ t, exec (.subnReg x y) s = .next t ∧
    (t.reg x).toNat = ((s.reg y).toNat + 256 - (s.reg x).toNat) % 256 ∧
    (x ≠ 0xF#4 → (t.reg 0xF#4).toNat = if (s.reg y).toNat > (s.reg x).toNat then 1 else 0) ∧ t.pc = p + 2#16 ∧
    SameExcept [.reg x, .reg 0xF#4] s t

/-- Derived from R128 and, for `X = 15`, from R130's `latched` (92_eei_decisions.md D3, log entry 5): SHL writes bit 7 of the
value before the shift to `x[15]`, then the low 8 bits of the value shifted left by one to `x[X]`; `Y` is ignored. -/
def Obligations.ShlShiftsLeftAndKeepsTheHighBit : Prop :=
  (∀ w : Word, w &&& 0xF00F#16 = 0x800E#16 → decode w = .ok (.shl (w.extractLsb' 8 4) (w.extractLsb' 4 4))) ∧
  ∀ (x y : RegIdx) (s : State) (p : Word), s.pc = p + 2#16 → ∃ t, exec (.shl x y) s = .next t ∧
    (t.reg x).toNat = 2 * (s.reg x).toNat % 256 ∧ (x ≠ 0xF#4 → (t.reg 0xF#4).toNat = (s.reg x).toNat / 128) ∧
    t.pc = p + 2#16 ∧ SameExcept [.reg x, .reg 0xF#4] s t

/-- Derived from R130 (92_eei_decisions.md D3, log entry 5): the two readings of the four flag-first instructions agree
whenever neither `X` nor `Y` is 15 and for SUB_REG and SUBN_REG with `X = Y = 15`; where they differ, `sequential` gives
what R130's table says: the second assignment sees the flag just written. -/
def Obligations.AliasReadingsDifferOnlyAtRegister15 : Prop :=
  (∀ (m : Config.AliasMode) (x y : RegIdx) (s : State), x ≠ 0xF#4 → y ≠ 0xF#4 →
    s.subReg m x y = s.subReg .latched x y ∧ s.subnReg m x y = s.subnReg .latched x y ∧
      s.shrReg m x = s.shrReg .latched x ∧ s.shlReg m x = s.shlReg .latched x) ∧
  (∀ (m : Config.AliasMode) (s : State), (s.subReg m 0xF#4 0xF#4).reg 0xF#4 = 0x00#8 ∧
    (s.subnReg m 0xF#4 0xF#4).reg 0xF#4 = 0x00#8) ∧
  (∀ (y : RegIdx) (s : State), y ≠ 0xF#4 →
    (s.subReg .sequential 0xF#4 y).reg 0xF#4 = (if s.reg 0xF#4 > s.reg y then 1#8 else 0#8) - s.reg y ∧
    (s.subnReg .sequential 0xF#4 y).reg 0xF#4 = s.reg y - (if s.reg y > s.reg 0xF#4 then 1#8 else 0#8)) ∧
  (∀ (x : RegIdx) (s : State), x ≠ 0xF#4 →
    (s.subReg .sequential x 0xF#4).reg x = s.reg x - (if s.reg x > s.reg 0xF#4 then 1#8 else 0#8) ∧
    (s.subnReg .sequential x 0xF#4).reg x = (if s.reg 0xF#4 > s.reg x then 1#8 else 0#8) - s.reg x) ∧
  ∀ s : State, (s.shrReg .sequential 0xF#4).reg 0xF#4 = 0x00#8 ∧
    ((s.shlReg .sequential 0xF#4).reg 0xF#4).toNat = 2 * ((s.reg 0xF#4).toNat / 128)

/-! ### The random instruction and the stubs -/

/-- Derived from R140 (92_eei_decisions.md D6; the byte is the free value of log entry 2, so this holds for every byte):
RANDOM_AND writes the drawn byte masked with `KK` to `x[X]`, whatever the byte is, takes exactly one byte, and changes
nothing else; bits where `KK` has a 0 are 0. -/
def Obligations.RandomAndMasksOneDrawnByte : Prop :=
  (∀ w : Word, w &&& 0xF000#16 = 0xC000#16 → decode w = .ok (.randomAnd (w.extractLsb' 8 4) (w.extractLsb' 0 8))) ∧
  (∀ (x : RegIdx) (kk : Byte) (s : State) (p : Word), s.pc = p + 2#16 → ∃ t, exec (.randomAnd x kk) s = .next t ∧
    t.reg x = s.rnd &&& kk ∧ (∀ k, kk.getLsbD k = false → (t.reg x).getLsbD k = false) ∧
    (kk = 0xFF#8 → t.reg x = s.rnd) ∧ t.drawn = s.drawn + 1 ∧ t.pc = p + 2#16 ∧ SameExcept [.reg x, .drawn] s t) ∧
  ∀ (x : RegIdx) (kk r : Byte) (s : State), (s.maskInto x kk r).reg x = r &&& kk ∧
    SameExcept [.reg x] s (s.maskInto x kk r)

/-- Derived from R145 and R165 (that the classes are stubbed whole is 92_eei_decisions.md D4): every word of class D, E or F
raises NotImplemented (code 5), whatever its low 12 bits are, and changes nothing else. -/
def Obligations.StubbedClassesRaiseNotImplemented : Prop :=
  (∀ w : Word, w &&& 0xF000#16 = 0xD000#16 → decode w = .ok (.stubD (w.extractLsb' 0 12))) ∧
  (∀ w : Word, w &&& 0xF000#16 = 0xE000#16 → decode w = .ok (.stubE (w.extractLsb' 0 12))) ∧
  (∀ w : Word, w &&& 0xF000#16 = 0xF000#16 → decode w = .ok (.stubF (w.extractLsb' 0 12))) ∧
  ∀ (nnn : Addr12) (s : State) (p : Word), s.pc = p + 2#16 → ∃ t, exec (.stubD nnn) s = .next t ∧
    exec (.stubE nnn) s = .next t ∧ exec (.stubF nnn) s = .next t ∧ t.run = .faulted ∧ t.cause = .notImplemented ∧
    t.cause.code.toNat = 5 ∧ t.pc = p + 2#16 ∧ SameExcept [.run, .cause] s t

/-- Derived from R29 and R26 (the count of draws is the model's own field, log entry 2): RANDOM_AND takes exactly one byte
and no other instruction takes any or depends on one. -/
def Obligations.OnlyRandomAndTakesARandomByte : Prop :=
  (∀ (x : RegIdx) (kk : Byte) (s t : State), exec (.randomAnd x kk) s = .next t → t.drawn = s.drawn + 1) ∧
  ∀ (i : Instr) (s : State) (n : Nat), (∀ x kk, i ≠ .randomAnd x kk) →
    exec i (s.withDrawn n) = mapNext (fun t => t.withDrawn n) (exec i s)

/-! ### The register tables -/

/-- R12: an instruction writes no register but those of its line in the table, and its effect depends on no register but
those it reads: with any other register file that agrees on them it writes the same values and changes the rest of the
state alike. -/
def Obligations.RegistersReadAndWrittenByTheTable : Prop :=
  ∀ (i : Instr) (s : State), ∃ t, exec i s = .next t ∧ (∀ r, r ∉ writtenRegs i → t.reg r = s.reg r) ∧
    ∀ x' : Vector Byte 16, (∀ r ∈ readRegs i, (s.withRegs x').reg r = s.reg r) →
      ∃ t', exec i (s.withRegs x') = .next t' ∧ t' = t.withRegs t'.x ∧ ∀ r ∈ writtenRegs i, t'.reg r = t.reg r

/-- Derived from R21 (for `X = 15` see R130, 92_eei_decisions.md D3, whose result the per-instruction statements give): the
five flag-writing instructions leave the table's value, 0 or 1, in `x[15]` unless `X` is 15, and every other instruction leaves `x[15]` alone unless register 15 is its destination. -/
def Obligations.FlagRegisterByTheTable : Prop :=
  ∀ (i : Instr) (s : State), ∃ t, exec i s = .next t ∧
    match flagWritten s i with
    | some v => v ≤ 1 ∧ ((writtenRegs i).head? ≠ some 0xF#4 → (t.reg 0xF#4).toNat = v)
    | none => 0xF#4 ∉ writtenRegs i → t.reg 0xF#4 = s.reg 0xF#4

/-! ### The call stack -/

/-- Derived from R20 (that a popped slot keeps its contents is 92_eei_decisions.md D16): Push and Pop, with their two
faults, on which neither `stk` nor `sp` changes. -/
def Obligations.PushAndPop : Prop :=
  (∀ (s : State) (v : Word), s.sp.val = 16 → s.push v = .error .stackOverflow) ∧
  (∀ (s : State) (v : Word) (j : Nibble), s.sp.val = j.toNat → ∃ t, s.push v = .ok t ∧ t.slot j = v ∧
    t.sp.val = s.sp.val + 1 ∧ SameExcept [.slot j, .sp] s t ∧ ∃ u, t.pop = .ok (v, u) ∧ u.sp = s.sp ∧
      SameExcept [.slot j] s u) ∧
  (∀ s : State, s.sp.val = 0 → s.pop = .error .stackUnderflow) ∧
  ∀ (s : State) (j : Nibble), s.sp.val = j.toNat + 1 → ∃ t, s.pop = .ok (s.slot j, t) ∧ t.sp.val = j.toNat ∧
    SameExcept [.sp] s t

/-- Derived from 95_test_vectors.md T4, R91 and R92: after a CALL, from any state that kept the stack, RETURN restores the
address after the CALL and the stack pointer. -/
def Obligations.ReturnUndoesCall : Prop :=
  ∀ (nnn : Addr12) (s : State), s.sp.val ≠ 16 → ∃ t, exec (.call nnn) s = .next t ∧
    ∀ u : State, u.stk = t.stk → u.sp = t.sp → ∃ v, exec .ret u = .next v ∧ v.pc = s.pc ∧ v.sp = s.sp ∧ v.stk = t.stk ∧
      v.run = u.run

/-- Derived from R18, R19, R91, R92: the call stack is a list of at most 16 return addresses, last in first out. CALL puts
the current `pc` in front or, at 16, overflows; RETURN takes the front or, when there is none, underflows; no other
instruction changes the list. -/
def Obligations.CallStackIsABoundedList : Prop :=
  (∀ s : State, s.saved.length = s.sp.val ∧ s.saved.length ≤ 16) ∧
  (∀ (nnn : Addr12) (s : State), ∃ t, exec (.call nnn) s = .next t ∧
    if s.saved.length = 16 then t.saved = s.saved ∧ t.cause = .stackOverflow
    else t.saved = s.pc :: s.saved ∧ t.cause = s.cause) ∧
  (∀ s : State, ∃ t, exec .ret s = .next t ∧
    match s.saved with
    | [] => t.saved = [] ∧ t.pc = s.pc ∧ t.cause = .stackUnderflow
    | v :: rest => t.saved = rest ∧ t.pc = v ∧ t.cause = s.cause) ∧
  ∀ (i : Instr) (s t : State), (∀ nnn, i ≠ .call nnn) → i ≠ .ret → exec i s = .next t → t.saved = s.saved

/-- Derived from 95_test_vectors.md T5 and R20: from an empty stack any sixteen CALLs succeed, and a seventeenth raises
StackOverflow; a RETURN with an empty stack raises StackUnderflow. -/
def Obligations.SixteenCallsFitASeventeenthOverflows : Prop :=
  (∀ (ns : List Addr12) (s : State), s.sp.val + ns.length ≤ 16 → ∃ t, execCalls ns s = .next t ∧
    t.sp.val = s.sp.val + ns.length ∧ t.run = s.run ∧ t.cause = s.cause) ∧
  (∀ (ns : List Addr12) (n : Addr12) (s : State), s.sp.val = 0 → ns.length = 16 → ∃ t u, execCalls ns s = .next t ∧
    exec (.call n) t = .next u ∧ u.run = .faulted ∧ u.cause = .stackOverflow ∧ u.sp.val = 16 ∧ u.stk = t.stk) ∧
  ∀ s : State, s.sp.val = 0 → ∃ t, exec .ret s = .next t ∧ t.run = .faulted ∧ t.cause = .stackUnderflow

/-! ### Memory -/

/-- R45: no instruction writes memory, and none reads it: with any other memory it does the same to the rest of the state.
No step writes memory either. -/
def Obligations.InstructionsNeitherReadNorWriteMemory : Prop :=
  (∀ (i : Instr) (s : State), ∃ t, exec i s = .next t ∧ t.mem = s.mem ∧ (∀ a, t.memRead a = s.memRead a) ∧
    ∀ m : Memory, exec i (s.withMem m) = .next (t.withMem m)) ∧
  ∀ s t : State, step s = .next t → t.mem = s.mem

/-- Derived from R25 and R40 (the canonical form is the model's): two memories in canonical form that read alike at every
address are equal data. -/
def Obligations.CanonicalMemoriesThatReadAlikeAreEqual : Prop :=
  ∀ m n : Memory, m.wf → n.wf → (∀ a, a < 4096 → m.read a = n.read a) → m = n

/-! ### Reset and the host -/

/-- Derived from R190 (`sp`, `run` and `cause` are 92_eei_decisions.md D18, D10, D7): the reset value of every piece of
state, each of the 4096 bytes of memory included. -/
def Obligations.ResetValues : Prop :=
  (∀ r, State.reset.reg r = 0x00#8) ∧ State.reset.idx = 0x0000#16 ∧ State.reset.pc = 0x0200#16 ∧
  (∀ j, State.reset.slot j = 0x0000#16) ∧ State.reset.sp.val = 0 ∧
  (∀ a, State.reset.memRead a = if a < 4096 then some 0x00#8 else none) ∧ State.reset.run = .idle ∧
  State.reset.cause = .none ∧ State.reset.status = (0#2, 0#3)

/-- R33: reset in any run state puts every piece of the block's state at its reset value (the model's own draw count, which
is outside the block, goes on: log entry 3), and no other host action and no step leaves HALTED or FAULTED. -/
def Obligations.ResetFromAnyRunState : Prop :=
  (∀ s : State, ∃ t, hostMove .reset s = .next t ∧ (∀ q : Part, q ≠ .drawn → t.part q = State.reset.part q) ∧
    ∀ a, t.memRead a = State.reset.memRead a) ∧
  (∀ (m : HostMove) (s t : State), s.run = .halted ∨ s.run = .faulted → hostMove m s = .next t → m ≠ .reset →
    t.run = s.run) ∧
  ∀ s t : State, s.run = .halted ∨ s.run = .faulted → step s = .next t → t.run = s.run

/-- Derived from R31 (92_eei_decisions.md D10): `start` sets `run` to RUNNING in IDLE and changes nothing else; in every
other run state it has no effect. -/
def Obligations.StartActsInIdleOnly : Prop :=
  (∀ s : State, s.run = .idle → ∃ t, hostMove .start s = .next t ∧ t.run = .running ∧ SameExcept [.run] s t) ∧
  ∀ s : State, s.run ≠ .idle → hostMove .start s = .next s

/-- Derived from R30 (92_eei_decisions.md D11, D19; log entry 7): while IDLE the host may write any byte of memory, any
register and `pc`, and each write changes that alone; outside IDLE each of the three is refused; an address above 4095 is
no address. -/
def Obligations.HostLoadsWhileIdleOnly : Prop :=
  (∀ (s : State) (a : Nat) (v : Byte), s.run = .idle → s.mem.wf → a ≤ 4095 →
    ∃ t, hostMove (.writeMem a v) s = .next t ∧ t.memRead a = some v ∧ (∀ b, b ≠ a → t.memRead b = s.memRead b) ∧
      ∀ q : Part, t.part q = s.part q) ∧
  (∀ (s : State) (a : Nat) (v : Byte), s.run = .idle → 4096 ≤ a →
    hostMove (.writeMem a v) s = .fault (.noSuchAddress a)) ∧
  (∀ (s : State) (r : RegIdx) (v : Byte), s.run = .idle → ∃ t, hostMove (.writeReg r v) s = .next t ∧ t.reg r = v ∧
    SameExcept [.reg r] s t) ∧
  (∀ (s : State) (v : Word), s.run = .idle → ∃ t, hostMove (.writePc v) s = .next t ∧ t.pc = v ∧
    SameExcept [.pc] s t) ∧
  ∀ (s : State) (a : Nat) (r : RegIdx) (b : Byte) (v : Word), s.run ≠ .idle →
    hostMove (.writeMem a b) s = .refused .hostAccessOutsideIdle ∧
    hostMove (.writeReg r b) s = .refused .hostAccessOutsideIdle ∧
    hostMove (.writePc v) s = .refused .hostAccessOutsideIdle

/-- Derived from R32 (92_eei_decisions.md D12): the result is offered exactly after a normal end and is the register file;
the debugging read shows nothing while the block runs; run state and cause are always readable and told apart by their
codes. -/
def Obligations.ResultOfferedOnlyWhenHalted : Prop :=
  (∀ s : State, (s.run = .halted → s.result = some s.x) ∧ (s.run ≠ .halted → s.result = none) ∧
    (s.readout = none ↔ s.run = .running)) ∧
  (∀ s t : State, s.status = t.status → s.run = t.run ∧ s.cause = t.cause) ∧
  ∀ (s : State) (v : Readout), s.readout = some v → v.x = s.x ∧ v.pc = s.pc ∧ v.idx = s.idx ∧ v.stk = s.stk ∧
    v.sp.toNat = s.sp.val ∧ v.mem = s.mem

/-- Derived from R191: `start` straight after reset gives a run of one step that ends HALTED with `pc` at 0x202 and all
registers 0. -/
def Obligations.StartAfterResetHaltsAtOnce : Prop :=
  ∃ s t : State, hostMove .start State.reset = .next s ∧ step s = .next t ∧ t.run = .halted ∧ t.cause = .none ∧
    t.pc = 0x202#16 ∧ (∀ r, t.reg r = 0x00#8) ∧ t.result = some t.x

/-- Derived from R192 and R80 (log entry 4): in the state where the host has stored a word at a fetchable `pc` and started
the run, the very next step runs exactly that word's instruction, at the same `pc`. -/
def Obligations.NextStepRunsThePlacedWord : Prop :=
  ∀ (s : State) (w : Word) (i : Instr), s.mem.wf → decode w = .ok i →
    FetchesWord (s.withFetchWord 16 w.toNat) w ∧
    step (s.withFetchWord 16 w.toNat) =
      exec i ((s.withFetchWord 16 w.toNat).setPc ((s.withFetchWord 16 w.toNat).pc + 2#16)) ∧
    (s.pc.toNat ≤ 4094 → (s.withFetchWord 16 w.toNat).pc = s.pc)

/-! ### Invariants -/

/-- Derived from R190 and the rules that `State.Inv` names: the invariant holds right after reset. -/
def Obligations.ResetMeetsTheInvariant : Prop := State.reset.Inv

/-- Derived from the rules that `State.Inv` names (R14, R23, R25, R30, R85, R91, R161 to R163, R166): from EVERY state that
meets the invariant, a step gives a state that meets it. -/
def Obligations.StepKeepsTheInvariant : Prop := ∀ s t : State, s.Inv → step s = .next t → t.Inv

/-- Derived from R30, R31 and R33: every host action keeps the invariant. -/
def Obligations.HostActionsKeepTheInvariant : Prop :=
  ∀ (m : HostMove) (s t : State), s.Inv → hostMove m s = .next t → t.Inv

/-- Derived from R33 and the rules that `State.Inv` names: the invariant holds of every state that the block and its host
can reach from reset, by steps and host actions in any order: whatever program the host loads, wherever it starts. -/
def Obligations.ReachableStatesMeetTheInvariant : Prop := ∀ s : State, Reachable s → s.Inv

/-- Derived from R17: no addition on `pc` wraps. A step from a running state that meets the invariant leaves `pc` where it
was (only when the fetch was out of bounds) or at most 0x10FE, and a fall-through or a taken skip is the mathematical sum,
at most 4096 or 4098. -/
def Obligations.PcNeverWraps : Prop :=
  ∀ s t : State, s.Inv → s.run = .running → step s = .next t →
    (4095 ≤ s.pc.toNat → t.pc = s.pc ∧ t.cause = .outOfBoundsFetch) ∧
    (s.pc.toNat ≤ 4094 → t.pc.toNat ≤ 0x10FE ∧ (s.pc + 2#16).toNat = s.pc.toNat + 2 ∧
      (s.pc + 4#16).toNat = s.pc.toNat + 4)

/-- Derived from R83: no execution budget. A JUMP to its own address runs for ever: after any number of steps the block is
running, in the same state. -/
def Obligations.SelfJumpRunsForEver : Prop :=
  ∀ (s : State) (nnn : Addr12) (k : Nat), FetchesWord s (wordA 0x1#4 nnn) → s.pc.toNat = nnn.toNat →
    Host.Core.run Sys2Proof.core k s = .next s ∧ s.run = .running
end

