-- ==== Sys2Proof/Laws/Encoding.lean ====
section
/-! SUPPORT. Words and their fields as numbers (30_encoding.md R61), so that a statement about an encoding becomes
arithmetic; the fields of a word that was put together from fields, for the three shapes the encoder uses; the encoder's
word lies in its row of the opcode map (R65). -/

namespace Sys2Proof

/-- Concatenation as a number: the first part in the more significant place (00_scope.md R5). -/
theorem toNat_concat {m n : Nat} (a : BitVec m) (b : BitVec n) : (a ++ b).toNat = a.toNat * 2 ^ n + b.toNat := by
  rw [BitVec.toNat_append, ← Nat.shiftLeft_add_eq_or_of_lt b.isLt, Nat.shiftLeft_eq]

/-- A field as a number: the bits above `start`, below `2 ^ len` (R5). -/
theorem toNat_field {w : Nat} (v : BitVec w) (start len : Nat) :
    (v.extractLsb' start len).toNat = v.toNat / 2 ^ start % 2 ^ len := by
  rw [BitVec.extractLsb'_toNat, Nat.shiftRight_eq_div_pow]

section
variable (c x y d : Nibble) (kk : Byte) (nnn : Addr12)

theorem toNat_wordOfNibbles :
    (wordOfNibbles c x y d).toNat = ((c.toNat * 16 + x.toNat) * 16 + y.toNat) * 16 + d.toNat := by
  simp only [wordOfNibbles, toNat_concat, Nat.reducePow]

theorem toNat_wordI : (wordI c x kk).toNat = (c.toNat * 16 + x.toNat) * 256 + kk.toNat := by
  simp only [wordI, toNat_concat, Nat.reducePow]

theorem toNat_wordA : (wordA c nnn).toNat = c.toNat * 4096 + nnn.toNat := by
  simp only [wordA, toNat_concat, Nat.reducePow]

@[simp] theorem fields_wordOfNibbles :
    fields (wordOfNibbles c x y d) = { c := c, x := x, y := y, d := d, nnn := x ++ y ++ d, kk := y ++ d } := by
  have h := toNat_wordOfNibbles c x y d
  simp only [fields, Fields.mk.injEq]
  refine ⟨?_, ?_, ?_, ?_, ?_, ?_⟩ <;> apply BitVec.eq_of_toNat_eq <;> simp only [toNat_field, toNat_concat, h] <;> omega

@[simp] theorem fields_wordI :
    fields (wordI c x kk) =
      { c := c, x := x, y := kk.extractLsb' 4 4, d := kk.extractLsb' 0 4, nnn := x ++ kk, kk := kk } := by
  have h := toNat_wordI c x kk
  simp only [fields, Fields.mk.injEq]
  refine ⟨?_, ?_, ?_, ?_, ?_, ?_⟩ <;> apply BitVec.eq_of_toNat_eq <;> simp only [toNat_field, toNat_concat, h] <;> omega

@[simp] theorem fields_wordA :
    fields (wordA c nnn) =
      { c := c, x := nnn.extractLsb' 8 4, y := nnn.extractLsb' 4 4, d := nnn.extractLsb' 0 4, nnn := nnn,
        kk := nnn.extractLsb' 0 8 } := by
  have h := toNat_wordA c nnn
  simp only [fields, Fields.mk.injEq]
  refine ⟨?_, ?_, ?_, ?_, ?_, ?_⟩ <;> apply BitVec.eq_of_toNat_eq <;> simp only [toNat_field, h] <;> omega

end

/-- A word is its four nibbles. -/
theorem wordOfNibbles_fields (w : Word) : wordOfNibbles (fields w).c (fields w).x (fields w).y (fields w).d = w := by
  apply BitVec.eq_of_toNat_eq
  simp only [toNat_wordOfNibbles, fields, toNat_field]
  omega

/-- A word is its class, `X` and `KK`. -/
theorem wordI_fields (w : Word) : wordI (fields w).c (fields w).x (fields w).kk = w := by
  apply BitVec.eq_of_toNat_eq
  simp only [toNat_wordI, fields, toNat_field]
  omega

/-- A word is its class and `NNN`. -/
theorem wordA_fields (w : Word) : wordA (fields w).c (fields w).nnn = w := by
  apply BitVec.eq_of_toNat_eq
  simp only [toNat_wordA, fields, toNat_field]
  omega

/-! ### Masks -/

/-- A bitwise and of two concatenations, part by part. -/
theorem concat_and {m n : Nat} (a c : BitVec m) (b d : BitVec n) : (a ++ b) &&& (c ++ d) = (a &&& c) ++ (b &&& d) := by
  ext i hi
  simp only [BitVec.getElem_and, BitVec.getElem_append]
  split <;> simp

/-- A bitwise and of two words, nibble by nibble. -/
theorem wordOfNibbles_and (c x y d c' x' y' d' : Nibble) :
    wordOfNibbles c x y d &&& wordOfNibbles c' x' y' d' =
      wordOfNibbles (c &&& c') (x &&& x') (y &&& y') (d &&& d') := by
  simp only [wordOfNibbles]
  exact (concat_and _ _ _ _).trans (by rw [concat_and, concat_and])

/-- Two words are equal exactly when their nibbles are. -/
theorem wordOfNibbles_inj {c x y d c' x' y' d' : Nibble} :
    wordOfNibbles c x y d = wordOfNibbles c' x' y' d' ↔ c = c' ∧ x = x' ∧ y = y' ∧ d = d' := by
  refine ⟨fun h => ?_, fun ⟨h1, h2, h3, h4⟩ => by rw [h1, h2, h3, h4]⟩
  have h := congrArg fields h
  simp only [fields_wordOfNibbles, Fields.mk.injEq] at h
  exact ⟨h.1, h.2.1, h.2.2.1, h.2.2.2.1⟩

/-- A word that a mask on the class selects: its class decides. -/
theorem and_classMask (w : Word) (k : Nibble) : w &&& 0xF000#16 = wordOfNibbles k 0#4 0#4 0#4 ↔ (fields w).c = k := by
  rw [← wordOfNibbles_fields w, show (0xF000#16 : Word) = wordOfNibbles 0xF#4 0#4 0#4 0#4 by decide, wordOfNibbles_and,
    wordOfNibbles_inj, fields_wordOfNibbles]
  have e : ∀ a : Nibble, a &&& 0xF#4 = a := by decide
  simp [e]

/-- A word that a mask on the class and `D` selects: these two nibbles decide. -/
theorem and_classDMask (w : Word) (k l : Nibble) :
    w &&& 0xF00F#16 = wordOfNibbles k 0#4 0#4 l ↔ (fields w).c = k ∧ (fields w).d = l := by
  rw [← wordOfNibbles_fields w, show (0xF00F#16 : Word) = wordOfNibbles 0xF#4 0#4 0#4 0xF#4 by decide, wordOfNibbles_and,
    wordOfNibbles_inj, fields_wordOfNibbles]
  have e : ∀ a : Nibble, a &&& 0xF#4 = a := by decide
  simp [e]

/-! ### The decoder, class by class -/

section
variable {w : Word}

theorem decode_class1 (h : (fields w).c = 0x1#4) : decode w = .ok (.jump (fields w).nnn) := by
  simp only [decode, h]

theorem decode_class2 (h : (fields w).c = 0x2#4) : decode w = .ok (.call (fields w).nnn) := by
  simp only [decode, h]

theorem decode_class3 (h : (fields w).c = 0x3#4) : decode w = .ok (.skipEq (fields w).x (fields w).kk) := by
  simp only [decode, h]

theorem decode_class4 (h : (fields w).c = 0x4#4) : decode w = .ok (.skipNeq (fields w).x (fields w).kk) := by
  simp only [decode, h]

theorem decode_class6 (h : (fields w).c = 0x6#4) : decode w = .ok (.loadImm (fields w).x (fields w).kk) := by
  simp only [decode, h]

theorem decode_class7 (h : (fields w).c = 0x7#4) : decode w = .ok (.addImm (fields w).x (fields w).kk) := by
  simp only [decode, h]

theorem decode_class9 (h : (fields w).c = 0x9#4) : decode w = .ok (.skipNeqReg (fields w).x (fields w).y (fields w).d) := by
  simp only [decode, h]

theorem decode_classA (h : (fields w).c = 0xA#4) : decode w = .ok (.setIndex (fields w).nnn) := by
  simp only [decode, h]

theorem decode_classB (h : (fields w).c = 0xB#4) : decode w = .ok (.jumpOffset (fields w).nnn) := by
  simp only [decode, h]

theorem decode_classC (h : (fields w).c = 0xC#4) : decode w = .ok (.randomAnd (fields w).x (fields w).kk) := by
  simp only [decode, h]

theorem decode_classD (h : (fields w).c = 0xD#4) : decode w = .ok (.stubD (fields w).nnn) := by
  simp only [decode, h]

theorem decode_classE (h : (fields w).c = 0xE#4) : decode w = .ok (.stubE (fields w).nnn) := by
  simp only [decode, h]

theorem decode_classF (h : (fields w).c = 0xF#4) : decode w = .ok (.stubF (fields w).nnn) := by
  simp only [decode, h]

theorem decode_class0 (h : (fields w).c = 0x0#4) : decode w = decodeClass0 w := by
  simp only [decode, h]

theorem decode_class5 (h : (fields w).c = 0x5#4) : decode w = decodeClass5 w (fields w) := by
  simp only [decode, h]

theorem decode_class8 (h : (fields w).c = 0x8#4) : decode w = decodeClass8 w (fields w) := by
  simp only [decode, h]

end

/-- What an assembler emits denotes a well-formed term (30_encoding.md R71). -/
theorem assembled_wellFormed (i : Instr) : i.assembled.wellFormed = true := by cases i <;> rfl

/-- A well-formed term is its own assembled form. -/
theorem assembled_of_wellFormed (i : Instr) (h : i.wellFormed = true) : i.assembled = i := by
  cases i <;> simp_all [Instr.wellFormed, Instr.assembled]

end Sys2Proof
end

