-- ==== Sys2Proof/Laws/State.lean ====
section
/-! SUPPORT. What each named update of the state does to each field and to the readers of registers, stack slots and
memory: one lemma per field per update, true by rfl, so that no proof unfolds a record update. -/

namespace Sys2Proof.Machine.State

variable (s : State)

/-! ### setReg -/

@[simp] theorem setReg_x (i : RegIdx) (v : Byte) : (s.setReg i v).x = s.x.set i.toNat v i.isLt := rfl
@[simp] theorem setReg_idx (i : RegIdx) (v : Byte) : (s.setReg i v).idx = s.idx := rfl
@[simp] theorem setReg_pc (i : RegIdx) (v : Byte) : (s.setReg i v).pc = s.pc := rfl
@[simp] theorem setReg_stk (i : RegIdx) (v : Byte) : (s.setReg i v).stk = s.stk := rfl
@[simp] theorem setReg_sp (i : RegIdx) (v : Byte) : (s.setReg i v).sp = s.sp := rfl
@[simp] theorem setReg_run (i : RegIdx) (v : Byte) : (s.setReg i v).run = s.run := rfl
@[simp] theorem setReg_cause (i : RegIdx) (v : Byte) : (s.setReg i v).cause = s.cause := rfl
@[simp] theorem setReg_mem (i : RegIdx) (v : Byte) : (s.setReg i v).mem = s.mem := rfl
@[simp] theorem setReg_drawn (i : RegIdx) (v : Byte) : (s.setReg i v).drawn = s.drawn := rfl
@[simp] theorem setReg_memRead (i : RegIdx) (v : Byte) (n : Nat) : (s.setReg i v).memRead n = s.memRead n := rfl
@[simp] theorem setReg_slot (i : RegIdx) (v : Byte) (j : Nibble) : (s.setReg i v).slot j = s.slot j := rfl

/-! ### setIdx -/

@[simp] theorem setIdx_x (v : Word) : (s.setIdx v).x = s.x := rfl
@[simp] theorem setIdx_idx (v : Word) : (s.setIdx v).idx = v := rfl
@[simp] theorem setIdx_pc (v : Word) : (s.setIdx v).pc = s.pc := rfl
@[simp] theorem setIdx_stk (v : Word) : (s.setIdx v).stk = s.stk := rfl
@[simp] theorem setIdx_sp (v : Word) : (s.setIdx v).sp = s.sp := rfl
@[simp] theorem setIdx_run (v : Word) : (s.setIdx v).run = s.run := rfl
@[simp] theorem setIdx_cause (v : Word) : (s.setIdx v).cause = s.cause := rfl
@[simp] theorem setIdx_mem (v : Word) : (s.setIdx v).mem = s.mem := rfl
@[simp] theorem setIdx_drawn (v : Word) : (s.setIdx v).drawn = s.drawn := rfl
@[simp] theorem setIdx_reg (v : Word) (r : RegIdx) : (s.setIdx v).reg r = s.reg r := rfl
@[simp] theorem setIdx_memRead (v : Word) (n : Nat) : (s.setIdx v).memRead n = s.memRead n := rfl
@[simp] theorem setIdx_slot (v : Word) (j : Nibble) : (s.setIdx v).slot j = s.slot j := rfl

/-! ### setPc -/

@[simp] theorem setPc_x (v : Word) : (s.setPc v).x = s.x := rfl
@[simp] theorem setPc_idx (v : Word) : (s.setPc v).idx = s.idx := rfl
@[simp] theorem setPc_pc (v : Word) : (s.setPc v).pc = v := rfl
@[simp] theorem setPc_stk (v : Word) : (s.setPc v).stk = s.stk := rfl
@[simp] theorem setPc_sp (v : Word) : (s.setPc v).sp = s.sp := rfl
@[simp] theorem setPc_run (v : Word) : (s.setPc v).run = s.run := rfl
@[simp] theorem setPc_cause (v : Word) : (s.setPc v).cause = s.cause := rfl
@[simp] theorem setPc_mem (v : Word) : (s.setPc v).mem = s.mem := rfl
@[simp] theorem setPc_drawn (v : Word) : (s.setPc v).drawn = s.drawn := rfl
@[simp] theorem setPc_reg (v : Word) (r : RegIdx) : (s.setPc v).reg r = s.reg r := rfl
@[simp] theorem setPc_memRead (v : Word) (n : Nat) : (s.setPc v).memRead n = s.memRead n := rfl
@[simp] theorem setPc_slot (v : Word) (j : Nibble) : (s.setPc v).slot j = s.slot j := rfl

/-! ### advance -/

@[simp] theorem advance_x : s.advance.x = s.x := rfl
@[simp] theorem advance_idx : s.advance.idx = s.idx := rfl
@[simp] theorem advance_pc : s.advance.pc = s.pc + 2#16 := rfl
@[simp] theorem advance_stk : s.advance.stk = s.stk := rfl
@[simp] theorem advance_sp : s.advance.sp = s.sp := rfl
@[simp] theorem advance_run : s.advance.run = s.run := rfl
@[simp] theorem advance_cause : s.advance.cause = s.cause := rfl
@[simp] theorem advance_mem : s.advance.mem = s.mem := rfl
@[simp] theorem advance_drawn : s.advance.drawn = s.drawn := rfl
@[simp] theorem advance_reg (r : RegIdx) : s.advance.reg r = s.reg r := rfl
@[simp] theorem advance_memRead (n : Nat) : s.advance.memRead n = s.memRead n := rfl
@[simp] theorem advance_slot (j : Nibble) : s.advance.slot j = s.slot j := rfl

/-! ### skipNext -/

@[simp] theorem skipNext_x : s.skipNext.x = s.x := rfl
@[simp] theorem skipNext_idx : s.skipNext.idx = s.idx := rfl
@[simp] theorem skipNext_pc : s.skipNext.pc = s.pc + 2#16 := rfl
@[simp] theorem skipNext_stk : s.skipNext.stk = s.stk := rfl
@[simp] theorem skipNext_sp : s.skipNext.sp = s.sp := rfl
@[simp] theorem skipNext_run : s.skipNext.run = s.run := rfl
@[simp] theorem skipNext_cause : s.skipNext.cause = s.cause := rfl
@[simp] theorem skipNext_mem : s.skipNext.mem = s.mem := rfl
@[simp] theorem skipNext_drawn : s.skipNext.drawn = s.drawn := rfl
@[simp] theorem skipNext_reg (r : RegIdx) : s.skipNext.reg r = s.reg r := rfl
@[simp] theorem skipNext_memRead (n : Nat) : s.skipNext.memRead n = s.memRead n := rfl
@[simp] theorem skipNext_slot (j : Nibble) : s.skipNext.slot j = s.slot j := rfl

/-! ### writeByte -/

@[simp] theorem writeByte_x (a : Nat) (b : Byte) : (s.writeByte a b).x = s.x := rfl
@[simp] theorem writeByte_idx (a : Nat) (b : Byte) : (s.writeByte a b).idx = s.idx := rfl
@[simp] theorem writeByte_pc (a : Nat) (b : Byte) : (s.writeByte a b).pc = s.pc := rfl
@[simp] theorem writeByte_stk (a : Nat) (b : Byte) : (s.writeByte a b).stk = s.stk := rfl
@[simp] theorem writeByte_sp (a : Nat) (b : Byte) : (s.writeByte a b).sp = s.sp := rfl
@[simp] theorem writeByte_run (a : Nat) (b : Byte) : (s.writeByte a b).run = s.run := rfl
@[simp] theorem writeByte_cause (a : Nat) (b : Byte) : (s.writeByte a b).cause = s.cause := rfl
@[simp] theorem writeByte_mem (a : Nat) (b : Byte) : (s.writeByte a b).mem = s.mem.write a b := rfl
@[simp] theorem writeByte_drawn (a : Nat) (b : Byte) : (s.writeByte a b).drawn = s.drawn := rfl
@[simp] theorem writeByte_reg (a : Nat) (b : Byte) (r : RegIdx) : (s.writeByte a b).reg r = s.reg r := rfl
@[simp] theorem writeByte_slot (a : Nat) (b : Byte) (j : Nibble) : (s.writeByte a b).slot j = s.slot j := rfl

/-! ### raise -/

@[simp] theorem raise_x (c : Cause) : (s.raise c).x = s.x := rfl
@[simp] theorem raise_idx (c : Cause) : (s.raise c).idx = s.idx := rfl
@[simp] theorem raise_pc (c : Cause) : (s.raise c).pc = s.pc := rfl
@[simp] theorem raise_stk (c : Cause) : (s.raise c).stk = s.stk := rfl
@[simp] theorem raise_sp (c : Cause) : (s.raise c).sp = s.sp := rfl
@[simp] theorem raise_run (c : Cause) : (s.raise c).run = .faulted := rfl
@[simp] theorem raise_cause (c : Cause) : (s.raise c).cause = c := rfl
@[simp] theorem raise_mem (c : Cause) : (s.raise c).mem = s.mem := rfl
@[simp] theorem raise_drawn (c : Cause) : (s.raise c).drawn = s.drawn := rfl
@[simp] theorem raise_reg (c : Cause) (r : RegIdx) : (s.raise c).reg r = s.reg r := rfl
@[simp] theorem raise_memRead (c : Cause) (n : Nat) : (s.raise c).memRead n = s.memRead n := rfl
@[simp] theorem raise_slot (c : Cause) (j : Nibble) : (s.raise c).slot j = s.slot j := rfl

/-! ### halt -/

@[simp] theorem halt_x : s.halt.x = s.x := rfl
@[simp] theorem halt_idx : s.halt.idx = s.idx := rfl
@[simp] theorem halt_pc : s.halt.pc = s.pc := rfl
@[simp] theorem halt_stk : s.halt.stk = s.stk := rfl
@[simp] theorem halt_sp : s.halt.sp = s.sp := rfl
@[simp] theorem halt_run : s.halt.run = .halted := rfl
@[simp] theorem halt_cause : s.halt.cause = s.cause := rfl
@[simp] theorem halt_mem : s.halt.mem = s.mem := rfl
@[simp] theorem halt_drawn : s.halt.drawn = s.drawn := rfl
@[simp] theorem halt_reg (r : RegIdx) : s.halt.reg r = s.reg r := rfl
@[simp] theorem halt_memRead (n : Nat) : s.halt.memRead n = s.memRead n := rfl
@[simp] theorem halt_slot (j : Nibble) : s.halt.slot j = s.slot j := rfl

/-! ### setRunning -/

@[simp] theorem setRunning_x : s.setRunning.x = s.x := rfl
@[simp] theorem setRunning_idx : s.setRunning.idx = s.idx := rfl
@[simp] theorem setRunning_pc : s.setRunning.pc = s.pc := rfl
@[simp] theorem setRunning_stk : s.setRunning.stk = s.stk := rfl
@[simp] theorem setRunning_sp : s.setRunning.sp = s.sp := rfl
@[simp] theorem setRunning_run : s.setRunning.run = .running := rfl
@[simp] theorem setRunning_cause : s.setRunning.cause = s.cause := rfl
@[simp] theorem setRunning_mem : s.setRunning.mem = s.mem := rfl
@[simp] theorem setRunning_drawn : s.setRunning.drawn = s.drawn := rfl
@[simp] theorem setRunning_reg (r : RegIdx) : s.setRunning.reg r = s.reg r := rfl
@[simp] theorem setRunning_memRead (n : Nat) : s.setRunning.memRead n = s.memRead n := rfl
@[simp] theorem setRunning_slot (j : Nibble) : s.setRunning.slot j = s.slot j := rfl

/-! ### countDraw -/

@[simp] theorem countDraw_x : s.countDraw.x = s.x := rfl
@[simp] theorem countDraw_idx : s.countDraw.idx = s.idx := rfl
@[simp] theorem countDraw_pc : s.countDraw.pc = s.pc := rfl
@[simp] theorem countDraw_stk : s.countDraw.stk = s.stk := rfl
@[simp] theorem countDraw_sp : s.countDraw.sp = s.sp := rfl
@[simp] theorem countDraw_run : s.countDraw.run = s.run := rfl
@[simp] theorem countDraw_cause : s.countDraw.cause = s.cause := rfl
@[simp] theorem countDraw_mem : s.countDraw.mem = s.mem := rfl
@[simp] theorem countDraw_drawn : s.countDraw.drawn = s.drawn + 1 := rfl
@[simp] theorem countDraw_reg (r : RegIdx) : s.countDraw.reg r = s.reg r := rfl
@[simp] theorem countDraw_memRead (n : Nat) : s.countDraw.memRead n = s.memRead n := rfl
@[simp] theorem countDraw_slot (j : Nibble) : s.countDraw.slot j = s.slot j := rfl

/-! ### maskInto -/

@[simp] theorem maskInto_x (i : RegIdx) (kk r : Byte) : (s.maskInto i kk r).x = s.x.set i.toNat (r &&& kk) i.isLt := rfl
@[simp] theorem maskInto_idx (i : RegIdx) (kk r : Byte) : (s.maskInto i kk r).idx = s.idx := rfl
@[simp] theorem maskInto_pc (i : RegIdx) (kk r : Byte) : (s.maskInto i kk r).pc = s.pc := rfl
@[simp] theorem maskInto_stk (i : RegIdx) (kk r : Byte) : (s.maskInto i kk r).stk = s.stk := rfl
@[simp] theorem maskInto_sp (i : RegIdx) (kk r : Byte) : (s.maskInto i kk r).sp = s.sp := rfl
@[simp] theorem maskInto_run (i : RegIdx) (kk r : Byte) : (s.maskInto i kk r).run = s.run := rfl
@[simp] theorem maskInto_cause (i : RegIdx) (kk r : Byte) : (s.maskInto i kk r).cause = s.cause := rfl
@[simp] theorem maskInto_mem (i : RegIdx) (kk r : Byte) : (s.maskInto i kk r).mem = s.mem := rfl
@[simp] theorem maskInto_drawn (i : RegIdx) (kk r : Byte) : (s.maskInto i kk r).drawn = s.drawn := rfl
@[simp] theorem maskInto_memRead (i : RegIdx) (kk r : Byte) (n : Nat) : (s.maskInto i kk r).memRead n = s.memRead n := rfl
@[simp] theorem maskInto_slot (i : RegIdx) (kk r : Byte) (j : Nibble) : (s.maskInto i kk r).slot j = s.slot j := rfl

/-! ### rest and the register file -/

@[simp] theorem rest_eq : s.rest = s := rfl

/-- A register after a register write: the written one has the value, every other its own (00_scope.md R7). -/
@[simp] theorem setReg_reg (i r : RegIdx) (v : Byte) : (s.setReg i v).reg r = if i = r then v else s.reg r := by
  simp [reg, setReg, Vector.getElem_set, BitVec.toNat_inj]

@[simp] theorem maskInto_reg (i r : RegIdx) (kk b : Byte) :
    (s.maskInto i kk b).reg r = if i = r then b &&& kk else s.reg r := by
  simp [maskInto]

@[simp] theorem skipIf_true : s.skipIf true = s.skipNext := rfl
@[simp] theorem skipIf_false : s.skipIf false = s := rfl
@[simp] theorem rnd_eq : s.rnd = Config.randomByte s.drawn := rfl

end Sys2Proof.Machine.State
end

