-- ==== Sys2Proof/Laws/Ops.lean ====
section
/-! SUPPORT. One lemma for everything that a shared operation can do: memory, the fetch, push and pop, the two orders of
a flag-writing instruction. Proofs cite these instead of unfolding the operations. -/

namespace Sys2Proof.Machine

/-! ### Memory -/

namespace Memory

theorem wf_nil : Memory.wf [] := by simp [Memory.wf]

theorem wf_tail {c : Host.Cell} {m : Memory} (h : Memory.wf (c :: m)) : Memory.wf m :=
  ⟨h.1.of_cons, fun d hd => h.2 d (List.mem_cons_of_mem _ hd)⟩

theorem wf_head_lt {b : Nat} {u : Byte} {m : Memory} (h : Memory.wf ((b, u) :: m)) : ∀ c ∈ m, b < c.1 :=
  fun _ hc => List.rel_of_pairwise_cons h.1 hc

/-- An address below every listed one reads as an unlisted address. -/
theorem read_of_below {m : Memory} {a : Nat} (h : ∀ c ∈ m, a < c.1) : Memory.read m a = unlistedByte := by
  induction m with
  | nil => rfl
  | cons c m ih =>
    obtain ⟨b, u⟩ := c
    have hb : a < b := h (b, u) List.mem_cons_self
    simp only [Memory.read, if_neg (Nat.ne_of_gt hb)]
    exact ih fun d hd => h d (List.mem_cons_of_mem _ hd)

/-- Read after write on a canonical memory: the written address gives the value, every other its own. -/
theorem read_write {m : Memory} (h : m.wf) (a b : Nat) (v : Byte) :
    Memory.read (m.write a v) b = if a = b then v else m.read b := by
  induction m with
  | nil => by_cases hv : v = unlistedByte <;> by_cases hab : a = b <;> simp [Memory.write, Memory.read, *]
  | cons c m ih =>
    obtain ⟨k, u⟩ := c
    have hk := wf_head_lt h
    have below : ∀ n, n ≤ k → Memory.read m n = unlistedByte := fun n hn =>
      read_of_below fun d hd => Nat.lt_of_le_of_lt hn (hk d hd)
    rcases Nat.lt_trichotomy a k with hak | rfl | hak
    · by_cases hv : v = unlistedByte <;> by_cases hab : a = b
      · subst hab; simp [Memory.write, Memory.read, hak, hv, Nat.ne_of_gt hak, below a (Nat.le_of_lt hak)]
      · simp [Memory.write, Memory.read, hak, hv, hab]
      · subst hab; simp [Memory.write, Memory.read, hak, hv]
      · simp [Memory.write, Memory.read, hak, hv, hab]
    · by_cases hv : v = unlistedByte <;> by_cases hab : a = b
      · subst hab; simp [Memory.write, hv, below a (Nat.le_refl a)]
      · simp [Memory.write, Memory.read, hv, hab]
      · simp [Memory.write, Memory.read, hv, hab]
      · simp [Memory.write, Memory.read, hv, hab]
    · have h1 : ¬a < k := Nat.not_lt.2 (Nat.le_of_lt hak)
      have h2 : a ≠ k := Nat.ne_of_gt hak
      by_cases hkb : k = b
      · subst hkb; simp [Memory.write, Memory.read, h1, h2]
      · simp [Memory.write, Memory.read, h1, h2, hkb, ih (wf_tail h)]

/-- A write lists no address but the written one and those listed before, and no unlisted byte. -/
theorem mem_write {m : Memory} {a : Nat} {v : Byte} {c : Host.Cell} (hc : c ∈ m.write a v) :
    c ∈ m ∨ (c = (a, v) ∧ v ≠ unlistedByte) := by
  induction m with
  | nil =>
    by_cases hv : v = unlistedByte
    · simp [Memory.write, hv] at hc
    · simp [Memory.write, hv] at hc; exact .inr ⟨hc, hv⟩
  | cons d m ih =>
    obtain ⟨k, u⟩ := d
    simp only [Memory.write] at hc
    split at hc
    · split at hc
      · exact .inl hc
      · rcases List.mem_cons.1 hc with h | h
        · exact .inr ⟨h, ‹_›⟩
        · exact .inl h
    · split at hc
      · split at hc
        · exact .inl (List.mem_cons_of_mem _ hc)
        · rcases List.mem_cons.1 hc with h | h
          · exact .inr ⟨h, ‹_›⟩
          · exact .inl (List.mem_cons_of_mem _ h)
      · rcases List.mem_cons.1 hc with h | h
        · exact .inl (h ▸ List.mem_cons_self)
        · exact (ih h).imp (List.mem_cons_of_mem _) id

/-- A write inside memory keeps the canonical form. -/
theorem write_wf {m : Memory} (h : m.wf) {a : Nat} (ha : a < Config.memSize) (v : Byte) : (m.write a v).wf := by
  refine ⟨?_, fun c hc => (mem_write hc).elim (h.2 c) fun e => e.1 ▸ ⟨ha, e.2⟩⟩
  induction m with
  | nil => by_cases hv : v = unlistedByte <;> simp [Memory.write, hv]
  | cons d m ih =>
    obtain ⟨k, u⟩ := d
    have hk := wf_head_lt h
    simp only [Memory.write]
    split
    · rename_i hak
      split
      · exact h.1
      · refine List.pairwise_cons.2 ⟨fun c hc => ?_, h.1⟩
        rcases List.mem_cons.1 hc with rfl | hc
        · exact hak
        · exact Nat.lt_trans hak (hk c hc)
    · rename_i hak
      split
      · rename_i e
        split
        · exact h.1.of_cons
        · exact List.pairwise_cons.2 ⟨fun c hc => e ▸ hk c hc, h.1.of_cons⟩
      · rename_i e
        refine List.pairwise_cons.2 ⟨fun c hc => ?_, ih (wf_tail h)⟩
        rcases mem_write hc with hc | ⟨rfl, _⟩
        · exact hk c hc
        · exact Nat.lt_of_le_of_ne (Nat.not_lt.1 hak) (Ne.symm e)

end Memory

/-- Memory right after reset has the canonical form. -/
theorem reset_mem_wf : State.reset.mem.wf := Memory.wf_nil

namespace State

variable {s t : State}

theorem memRead_of_lt {a : Nat} (h : a < 4096) : s.memRead a = some (s.mem.read a) := by
  simp [memRead, Config.memSize, h]

theorem memRead_of_le {a : Nat} (h : 4096 ≤ a) : s.memRead a = none := by
  simp [memRead, Config.memSize, Nat.not_lt.2 h]

theorem writeByte_memRead (h : s.mem.wf) (a n : Nat) (v : Byte) :
    (s.writeByte a v).memRead n = if a = n ∧ n < 4096 then some v else s.memRead n := by
  by_cases hn : n < 4096
  · by_cases e : a = n <;> simp [memRead, Config.memSize, hn, Memory.read_write h, e]
  · simp [memRead, Config.memSize, hn]

/-- Same memory, same reads. -/
theorem memRead_congr (h : t.mem = s.mem) (a : Nat) : t.memRead a = s.memRead a := by simp [memRead, h]

/-! ### The fetch -/

/-- A fetch at 0 to 4094 gives the two bytes, the first more significant (20_memory.md R41 to R43). -/
theorem fetch_of_le (h : s.pc.toNat ≤ 4094) :
    s.fetch = .ok (wordOfBytes (s.mem.read s.pc.toNat) (s.mem.read (s.pc.toNat + 1))) := by
  have h1 : ¬s.pc.toNat + 1 > Config.memSize - 1 := by simp only [Config.memSize]; omega
  simp only [fetch, if_neg h1, memRead_of_lt (show s.pc.toNat < 4096 by omega),
    memRead_of_lt (show s.pc.toNat + 1 < 4096 by omega), wordOfBytes]

/-- A fetch at 4095 or above is out of bounds (R43). -/
theorem fetch_of_ge (h : 4095 ≤ s.pc.toNat) : s.fetch = .error .outOfBoundsFetch := by
  have h1 : s.pc.toNat + 1 > Config.memSize - 1 := by simp only [Config.memSize]; omega
  simp only [fetch, if_pos h1]

/-- The fetch depends on `pc` and on the two bytes only. -/
theorem fetch_congr (hpc : t.pc = s.pc) (h0 : t.memRead s.pc.toNat = s.memRead s.pc.toNat)
    (h1 : t.memRead (s.pc.toNat + 1) = s.memRead (s.pc.toNat + 1)) : t.fetch = s.fetch := by
  simp only [fetch, hpc, h0, h1]

/-! ### Push and pop -/

theorem push_full (h : s.sp.val = 16) (v : Word) : s.push v = .error .stackOverflow := by simp [push, h]

/-- What a push that succeeds does (10_state.md R20). -/
theorem push_free (h : s.sp.val ≠ 16) (v : Word) :
    s.push v = .ok { s with stk := s.stk.set s.sp.val v (by omega), sp := ⟨s.sp.val + 1, by omega⟩ } := by
  simp [push, h]

theorem pop_empty (h : s.sp.val = 0) : s.pop = .error .stackUnderflow := by simp [pop, h]

/-- What a pop that succeeds does (10_state.md R20). -/
theorem pop_saved (h : s.sp.val ≠ 0) :
    s.pop = .ok (s.stk[s.sp.val - 1]'(by omega), { s with sp := ⟨s.sp.val - 1, by omega⟩ }) := by
  simp [pop, h]

/-- A slot after a push. -/
theorem slot_set_stk (k : Nat) (hk : k < 16) (v : Word) (j : Nibble) :
    ({ s with stk := s.stk.set k v hk } : State).slot j = if k = j.toNat then v else s.slot j := by
  simp [slot, Vector.getElem_set]

/-! ### The two orders of a flag-writing instruction (44_alu.md R130) -/

/-- Result first: the flag is what register 15 holds afterwards, whatever `X` is. -/
theorem resultThenFlag_reg (x y r : RegIdx) (result flag : Byte → Byte → Byte) :
    (s.resultThenFlag x y result flag).reg r =
      if 0xF#4 = r then flag (s.reg x) (s.reg y) else if x = r then result (s.reg x) (s.reg y) else s.reg r := by
  simp [resultThenFlag, Config.flagReg]

/-- Flag first, `latched`: the result is what register `X` holds afterwards, register 15 included. -/
theorem flagThenResult_latched_reg (x y r : RegIdx) (flag result : Byte → Byte → Byte) :
    (s.flagThenResult .latched x y flag result).reg r =
      if x = r then result (s.reg x) (s.reg y) else if 0xF#4 = r then flag (s.reg x) (s.reg y) else s.reg r := by
  simp [flagThenResult, Config.flagReg]

/-- Either order changes the register file only. -/
theorem resultThenFlag_eq_withRegs (x y : RegIdx) (result flag : Byte → Byte → Byte) :
    s.resultThenFlag x y result flag = s.withRegs (s.resultThenFlag x y result flag).x := rfl

theorem flagThenResult_eq_withRegs (m : Config.AliasMode) (x y : RegIdx) (flag result : Byte → Byte → Byte) :
    s.flagThenResult m x y flag result = s.withRegs (s.flagThenResult m x y flag result).x := by cases m <;> rfl

end State

end Sys2Proof.Machine
end

