-- ==== Sys2Proof/Laws/Exec.lean ====
section
/-! SUPPORT. What each arm of `exec` answers, and the one inversion lemma: everything that an instruction can do to a
state. -/

namespace Sys2Proof.Machine

section
variable (s : State) (x y : RegIdx) (d : Nibble) (kk : Byte) (nnn : Addr12)

@[simp] theorem exec_halt : exec .halt s = .next s.halt := rfl
@[simp] theorem exec_jump : exec (.jump nnn) s = .next (s.setPc (addrOperand nnn)) := rfl
@[simp] theorem exec_jumpOffset : exec (.jumpOffset nnn) s = .next (s.setPc (offsetTarget s nnn)) := rfl
@[simp] theorem exec_skipEq : exec (.skipEq x kk) s = .next (s.skipIf (s.reg x == kk)) := rfl
@[simp] theorem exec_skipNeq : exec (.skipNeq x kk) s = .next (s.skipIf (s.reg x != kk)) := rfl
@[simp] theorem exec_skipEqReg : exec (.skipEqReg x y) s = .next (s.skipIf (s.reg x == s.reg y)) := rfl
@[simp] theorem exec_skipNeqReg : exec (.skipNeqReg x y d) s = .next (s.skipIf (s.reg x != s.reg y)) := rfl
@[simp] theorem exec_loadImm : exec (.loadImm x kk) s = .next (s.setReg x kk) := rfl
@[simp] theorem exec_addImm : exec (.addImm x kk) s = .next (s.setReg x (s.reg x + kk)) := rfl
@[simp] theorem exec_setIndex : exec (.setIndex nnn) s = .next (s.setIdx (addrOperand nnn)) := rfl
@[simp] theorem exec_mov : exec (.mov x y) s = .next (s.setReg x (s.reg y)) := rfl
@[simp] theorem exec_or : exec (.or x y) s = .next (s.setReg x (s.reg x ||| s.reg y)) := rfl
@[simp] theorem exec_and : exec (.and x y) s = .next (s.setReg x (s.reg x &&& s.reg y)) := rfl
@[simp] theorem exec_xor : exec (.xor x y) s = .next (s.setReg x (s.reg x ^^^ s.reg y)) := rfl
@[simp] theorem exec_addReg : exec (.addReg x y) s = .next (s.resultThenFlag x y addResult carryFlag) := rfl
@[simp] theorem exec_subReg : exec (.subReg x y) s = .next (s.subReg .latched x y) := rfl
@[simp] theorem exec_shr : exec (.shr x y) s = .next (s.shrReg .latched x) := rfl
@[simp] theorem exec_subnReg : exec (.subnReg x y) s = .next (s.subnReg .latched x y) := rfl
@[simp] theorem exec_shl : exec (.shl x y) s = .next (s.shlReg .latched x) := rfl
@[simp] theorem exec_randomAnd : exec (.randomAnd x kk) s = .next (s.countDraw.maskInto x kk s.rnd) := rfl
@[simp] theorem exec_stubD : exec (.stubD nnn) s = .next (s.raise .notImplemented) := rfl
@[simp] theorem exec_stubE : exec (.stubE nnn) s = .next (s.raise .notImplemented) := rfl
@[simp] theorem exec_stubF : exec (.stubF nnn) s = .next (s.raise .notImplemented) := rfl

end

variable {s t : State}

theorem exec_call_full (h : s.sp.val = 16) (nnn : Addr12) : exec (.call nnn) s = .next (s.raise .stackOverflow) := by
  simp [exec, execCall, State.push_full h]

theorem exec_call_free (h : s.sp.val ≠ 16) (nnn : Addr12) :
    exec (.call nnn) s = .next { s with
      stk := s.stk.set s.sp.val s.pc (by omega), sp := ⟨s.sp.val + 1, by omega⟩, pc := addrOperand nnn } := by
  simp [exec, execCall, State.push_free h, State.setPc]

theorem exec_ret_empty (h : s.sp.val = 0) : exec .ret s = .next (s.raise .stackUnderflow) := by
  simp [exec, execRet, State.pop_empty h]

theorem exec_ret_saved (h : s.sp.val ≠ 0) :
    exec .ret s = .next { s with
      sp := ⟨s.sp.val - 1, by omega⟩, pc := s.stk[s.sp.val - 1]'(by omega) } := by
  simp [exec, execRet, State.pop_saved h, State.setPc]

/-- Everything an instruction can do: it writes registers only, or takes a byte and writes registers, or writes `idx`, or
`pc`, or pushes `pc` and jumps, or pops into `pc`, or halts, or raises a fault on an otherwise unchanged state. -/
theorem exec_cases (i : Instr) (h : exec i s = .next t) :
    (∃ x', t = s.withRegs x') ∨ (∃ x', t = s.countDraw.withRegs x') ∨ (∃ nnn, t = s.setIdx (addrOperand nnn)) ∨
    (∃ v, t = s.setPc v) ∨
    (∃ (_hsp : s.sp.val ≠ 16) (nnn : Addr12), t = { s with
      stk := s.stk.set s.sp.val s.pc (by omega), sp := ⟨s.sp.val + 1, by omega⟩, pc := addrOperand nnn }) ∨
    (∃ _hsp : s.sp.val ≠ 0, t = { s with
      sp := ⟨s.sp.val - 1, by omega⟩, pc := s.stk[s.sp.val - 1]'(by omega) }) ∨
    t = s.halt ∨
    (t = s.raise .stackOverflow ∧ s.sp.val = 16) ∨ (t = s.raise .stackUnderflow ∧ s.sp.val = 0) ∨
    t = s.raise .notImplemented := by
  have skip : ∀ b, ∃ v, s.skipIf b = s.setPc v := fun b => by
    cases b
    · exact ⟨s.pc, rfl⟩
    · exact ⟨s.pc + 2#16, rfl⟩
  have flags := fun (x y : RegIdx) (f g : Byte → Byte → Byte) => s.flagThenResult_eq_withRegs .latched x y f g
  cases i
  case halt => cases h; simp
  case ret =>
    by_cases e : s.sp.val = 0
    · rw [exec_ret_empty e] at h; cases h; exact .inr (.inr (.inr (.inr (.inr (.inr (.inr (.inr (.inl ⟨rfl, e⟩))))))))
    · rw [exec_ret_saved e] at h; cases h; exact .inr (.inr (.inr (.inr (.inr (.inl ⟨e, rfl⟩)))))
  case call nnn =>
    by_cases e : s.sp.val = 16
    · rw [exec_call_full e] at h; cases h; exact .inr (.inr (.inr (.inr (.inr (.inr (.inr (.inl ⟨rfl, e⟩)))))))
    · rw [exec_call_free e] at h; cases h; exact .inr (.inr (.inr (.inr (.inl ⟨e, nnn, rfl⟩))))
  case skipEq | skipNeq | skipEqReg | skipNeqReg => cases h; exact .inr (.inr (.inr (.inl (skip _))))
  case jump | jumpOffset => cases h; exact .inr (.inr (.inr (.inl ⟨_, rfl⟩)))
  case setIndex => cases h; exact .inr (.inr (.inl ⟨_, rfl⟩))
  case randomAnd => cases h; exact .inr (.inl ⟨_, rfl⟩)
  case stubD | stubE | stubF => cases h; simp
  case loadImm | addImm | mov | or | and | xor => cases h; exact .inl ⟨_, rfl⟩
  case addReg => cases h; exact .inl ⟨_, rfl⟩
  case subReg | shr | subnReg | shl => cases h; exact .inl ⟨_, flags _ _ _ _⟩

end Sys2Proof.Machine
end

