-- ==== Sys2Proof/Laws/Flags.lean ====
section
/-! SUPPORT. Every flag and result computation, and every operand form, as arithmetic on numbers (44_alu.md R129,
30_encoding.md R63). -/

namespace Sys2Proof.Machine

theorem toNat_sum9 (a b : Byte) : (sum9 a b).toNat = a.toNat + b.toNat := by
  have := a.isLt
  have := b.isLt
  simp only [sum9, BitVec.toNat_add, BitVec.toNat_setWidth]
  omega

/-- The sum modulo 256 (R124). -/
theorem toNat_addResult (a b : Byte) : (addResult a b).toNat = (a.toNat + b.toNat) % 256 := by
  simp only [addResult, toNat_field, toNat_sum9, Nat.reducePow, Nat.div_one]

/-- The carry (R124). -/
theorem toNat_carryFlag (a b : Byte) : (carryFlag a b).toNat = if a.toNat + b.toNat > 255 then 1 else 0 := by
  have := a.isLt
  have := b.isLt
  simp only [carryFlag, BitVec.toNat_setWidth, toNat_field, toNat_sum9]
  split <;> omega

/-- The strict comparison (R125, R127). -/
theorem toNat_greaterFlag (a b : Byte) : (greaterFlag a b).toNat = if a.toNat > b.toNat then 1 else 0 := by
  simp only [greaterFlag, gt_iff_lt, BitVec.lt_def]
  split <;> rfl

/-- The difference modulo 256 (R125, R127). -/
theorem toNat_subResult (a b : Byte) : (subResult a b).toNat = (a.toNat + 256 - b.toNat) % 256 := by
  have := a.isLt
  have := b.isLt
  simp only [subResult, BitVec.toNat_sub]
  omega

theorem toNat_lowBitFlag (a : Byte) : (lowBitFlag a).toNat = a.toNat % 2 := by
  simp only [lowBitFlag, BitVec.toNat_setWidth, toNat_field]
  omega

theorem toNat_highBitFlag (a : Byte) : (highBitFlag a).toNat = a.toNat / 128 := by
  have := a.isLt
  simp only [highBitFlag, BitVec.toNat_setWidth, toNat_field]
  omega

theorem toNat_shrResult (a : Byte) : (shrResult a).toNat = a.toNat / 2 := by
  simp only [shrResult, BitVec.toNat_ushiftRight, Nat.shiftRight_eq_div_pow, Nat.pow_one]

theorem toNat_shlResult (a : Byte) : (shlResult a).toNat = 2 * a.toNat % 256 := by
  simp only [shlResult, BitVec.toNat_shiftLeft, Nat.shiftLeft_eq]
  omega

/-- A 12-bit field widened (R63). -/
theorem toNat_addrOperand (nnn : Addr12) : (addrOperand nnn).toNat = nnn.toNat := by
  have := nnn.isLt
  simp only [addrOperand, BitVec.toNat_setWidth]
  omega

/-- JUMP_OFFSET's sum does not wrap (41_control_transfer.md R93). -/
theorem toNat_offsetTarget (s : State) (nnn : Addr12) : (offsetTarget s nnn).toNat = (s.reg 0x0#4).toNat + nnn.toNat := by
  have := nnn.isLt
  have := (s.reg 0x0#4).isLt
  simp only [offsetTarget, BitVec.toNat_add, BitVec.toNat_setWidth, toNat_addrOperand]
  omega

/-- The advance does not wrap after a successful fetch (40_executor_step.md R81). -/
theorem toNat_advance {p : Word} (h : p.toNat ≤ 4094) : (p + 2#16).toNat = p.toNat + 2 := by
  rw [BitVec.toNat_add, show (2#16 : Word).toNat = 2 from rfl]
  omega

end Sys2Proof.Machine
end

