-- ==== Sys2Proof/Laws/PerInstr.lean ====
section
/-! SUPPORT. Statements made for every instruction, one lemma per constructor.

The family EncodesInRow: the encoder's word of an instruction is selected by the instruction's row of the opcode map
(30_encoding.md R65), whatever its operands are. -/

namespace Sys2Proof.Laws.EncodesInRow

/-- `w & mask = match` for the word that encodes `i` and `i`'s row of R65. -/
def Statement (i : Instr) : Prop := i.row.selects (encode i) = true

/-- A word that a mask on the class selects, as the row's test. -/
theorem selects_of_class {r : OpcodeRow} {w : Word} {k : Nibble} (hm : r.mask = 0xF000#16)
    (hp : r.pattern = wordOfNibbles k 0#4 0#4 0#4) (hk : (fields w).c = k) : r.selects w = true := by
  simp only [OpcodeRow.selects, hm, hp, beq_iff_eq]
  exact (and_classMask w k).2 hk

/-- A word that a mask on the class and `D` selects, as the row's test. -/
theorem selects_of_classD {r : OpcodeRow} {w : Word} {k l : Nibble} (hm : r.mask = 0xF00F#16)
    (hp : r.pattern = wordOfNibbles k 0#4 0#4 l) (hk : (fields w).c = k) (hl : (fields w).d = l) : r.selects w = true := by
  simp only [OpcodeRow.selects, hm, hp, beq_iff_eq]
  exact (and_classDMask w k l).2 ⟨hk, hl⟩

theorem halt : Statement .halt := by unfold Statement; decide
theorem ret : Statement .ret := by unfold Statement; decide
theorem jump (nnn : Addr12) : Statement (.jump nnn) :=
  selects_of_class (k := 0x1#4) rfl rfl (by simp [encode])
theorem call (nnn : Addr12) : Statement (.call nnn) :=
  selects_of_class (k := 0x2#4) rfl rfl (by simp [encode])
theorem setIndex (nnn : Addr12) : Statement (.setIndex nnn) :=
  selects_of_class (k := 0xA#4) rfl rfl (by simp [encode])
theorem jumpOffset (nnn : Addr12) : Statement (.jumpOffset nnn) :=
  selects_of_class (k := 0xB#4) rfl rfl (by simp [encode])
theorem stubD (nnn : Addr12) : Statement (.stubD nnn) :=
  selects_of_class (k := 0xD#4) rfl rfl (by simp [encode])
theorem stubE (nnn : Addr12) : Statement (.stubE nnn) :=
  selects_of_class (k := 0xE#4) rfl rfl (by simp [encode])
theorem stubF (nnn : Addr12) : Statement (.stubF nnn) :=
  selects_of_class (k := 0xF#4) rfl rfl (by simp [encode])
theorem skipEq (x : RegIdx) (kk : Byte) : Statement (.skipEq x kk) :=
  selects_of_class (k := 0x3#4) rfl rfl (by simp [encode])
theorem skipNeq (x : RegIdx) (kk : Byte) : Statement (.skipNeq x kk) :=
  selects_of_class (k := 0x4#4) rfl rfl (by simp [encode])
theorem loadImm (x : RegIdx) (kk : Byte) : Statement (.loadImm x kk) :=
  selects_of_class (k := 0x6#4) rfl rfl (by simp [encode])
theorem addImm (x : RegIdx) (kk : Byte) : Statement (.addImm x kk) :=
  selects_of_class (k := 0x7#4) rfl rfl (by simp [encode])
theorem randomAnd (x : RegIdx) (kk : Byte) : Statement (.randomAnd x kk) :=
  selects_of_class (k := 0xC#4) rfl rfl (by simp [encode])
theorem skipEqReg (x y : RegIdx) : Statement (.skipEqReg x y) :=
  selects_of_classD (k := 0x5#4) (l := 0x0#4) rfl rfl (by simp [encode]) (by simp [encode])
theorem mov (x y : RegIdx) : Statement (.mov x y) :=
  selects_of_classD (k := 0x8#4) (l := 0x0#4) rfl rfl (by simp [encode]) (by simp [encode])
theorem or (x y : RegIdx) : Statement (.or x y) :=
  selects_of_classD (k := 0x8#4) (l := 0x1#4) rfl rfl (by simp [encode]) (by simp [encode])
theorem and (x y : RegIdx) : Statement (.and x y) :=
  selects_of_classD (k := 0x8#4) (l := 0x2#4) rfl rfl (by simp [encode]) (by simp [encode])
theorem xor (x y : RegIdx) : Statement (.xor x y) :=
  selects_of_classD (k := 0x8#4) (l := 0x3#4) rfl rfl (by simp [encode]) (by simp [encode])
theorem addReg (x y : RegIdx) : Statement (.addReg x y) :=
  selects_of_classD (k := 0x8#4) (l := 0x4#4) rfl rfl (by simp [encode]) (by simp [encode])
theorem subReg (x y : RegIdx) : Statement (.subReg x y) :=
  selects_of_classD (k := 0x8#4) (l := 0x5#4) rfl rfl (by simp [encode]) (by simp [encode])
theorem shr (x y : RegIdx) : Statement (.shr x y) :=
  selects_of_classD (k := 0x8#4) (l := 0x6#4) rfl rfl (by simp [encode]) (by simp [encode])
theorem subnReg (x y : RegIdx) : Statement (.subnReg x y) :=
  selects_of_classD (k := 0x8#4) (l := 0x7#4) rfl rfl (by simp [encode]) (by simp [encode])
theorem shl (x y : RegIdx) : Statement (.shl x y) :=
  selects_of_classD (k := 0x8#4) (l := 0xE#4) rfl rfl (by simp [encode]) (by simp [encode])
theorem skipNeqReg (x y : RegIdx) (d : Nibble) : Statement (.skipNeqReg x y d) :=
  selects_of_class (k := 0x9#4) rfl rfl (by simp [encode])

end Sys2Proof.Laws.EncodesInRow
end

