-- ==== Sys2Proof/Laws/Step.lean ====
section
/-! SUPPORT. The frame of each named update, the fetch of a word that stands at `pc`, and the one inversion lemma of the
step: everything that a step can do. -/

namespace Sys2Proof.Machine

namespace SameExcept

variable (s : State)

theorem rfl' (l : List Part) : SameExcept l s s := ⟨fun _ _ => rfl, fun _ => rfl⟩

theorem setReg (x : RegIdx) (v : Byte) : SameExcept [.reg x] s (s.setReg x v) := by
  refine ⟨fun p hp => ?_, fun _ => rfl⟩
  cases p <;> simp_all [State.part, eq_comm]

theorem setPc (v : Word) : SameExcept [.pc] s (s.setPc v) := by
  refine ⟨fun p hp => ?_, fun _ => rfl⟩
  cases p <;> simp_all [State.part]

theorem setIdx (v : Word) : SameExcept [.idx] s (s.setIdx v) := by
  refine ⟨fun p hp => ?_, fun _ => rfl⟩
  cases p <;> simp_all [State.part]

theorem raise (c : Cause) : SameExcept [.run, .cause] s (s.raise c) := by
  refine ⟨fun p hp => ?_, fun _ => rfl⟩
  cases p <;> simp_all [State.part]

theorem halt : SameExcept [.run] s s.halt := by
  refine ⟨fun p hp => ?_, fun _ => rfl⟩
  cases p <;> simp_all [State.part]

theorem setRunning : SameExcept [.run] s s.setRunning := by
  refine ⟨fun p hp => ?_, fun _ => rfl⟩
  cases p <;> simp_all [State.part]

theorem skipIf (b : Bool) : SameExcept [.pc] s (s.skipIf b) := by
  cases b
  · exact rfl' s _
  · exact setPc s _

theorem resultThenFlag (x y : RegIdx) (f g : Byte → Byte → Byte) :
    SameExcept [.reg x, .reg 0xF#4] s (s.resultThenFlag x y f g) := by
  refine ⟨fun p hp => ?_, fun _ => rfl⟩
  cases p <;> simp_all [State.part, State.resultThenFlag_reg, eq_comm] <;> rfl

theorem flagThenResult (x y : RegIdx) (f g : Byte → Byte → Byte) :
    SameExcept [.reg x, .reg 0xF#4] s (s.flagThenResult .latched x y f g) := by
  refine ⟨fun p hp => ?_, fun _ => rfl⟩
  cases p <;> simp_all [State.part, State.flagThenResult_latched_reg, eq_comm] <;> rfl

end SameExcept

variable {s t : State}

/-- The word that stands at `pc` is the word the fetch gives. -/
theorem fetch_of_fetchesWord {w : Word} (h : FetchesWord s w) : s.fetch = .ok w := by
  obtain ⟨_, h2, h3, h4⟩ := h
  rw [State.memRead_of_lt (by omega), Option.some.injEq] at h3 h4
  rw [State.fetch_of_le h2, h3, h4, Except.ok.injEq]
  apply BitVec.eq_of_toNat_eq
  simp only [wordOfBytes, toNat_concat, toNat_field]
  omega

/-- Outside RUNNING the step answers the state itself (40_executor_step.md R80; log entry 1). -/
theorem step_of_not_running (h : s.run ≠ .running) : step s = .next s := by
  simp only [step]
  split <;> simp_all

theorem step_of_fetch_error {c : Cause} (h : s.run = .running) (hf : s.fetch = .error c) : step s = .next (s.raise c) := by
  simp only [step, h, State.runStep, hf]

theorem step_of_fetch {w : Word} (h : s.run = .running) (hf : s.fetch = .ok w) : step s = s.execWord w := by
  simp only [step, h, State.runStep, hf]

/-- Everything a step can do: nothing outside RUNNING; raise OutOfBoundsFetch at 4095 and above; otherwise run the decoded
instruction, or raise UnknownOpcode, on the advanced state. -/
theorem step_cases (h : step s = .next t) :
    (s.run ≠ .running ∧ t = s) ∨ (s.run = .running ∧ 4095 ≤ s.pc.toNat ∧ t = s.raise .outOfBoundsFetch) ∨
    (s.run = .running ∧ s.pc.toNat ≤ 4094 ∧ ∃ w, s.fetch = .ok w ∧
      ((∃ i, decode w = .ok i ∧ exec i s.advance = .next t) ∨
        ((∃ e, decode w = .error e) ∧ t = s.advance.raise .unknownOpcode))) := by
  by_cases hr : s.run = .running
  · by_cases hp : 4095 ≤ s.pc.toNat
    · rw [step_of_fetch_error hr (State.fetch_of_ge hp)] at h
      cases h
      exact .inr (.inl ⟨hr, hp, rfl⟩)
    · have hf := State.fetch_of_le (s := s) (by omega)
      rw [step_of_fetch hr hf] at h
      refine .inr (.inr ⟨hr, by omega, _, hf, ?_⟩)
      simp only [State.execWord] at h
      split at h
      · exact .inl ⟨_, ‹_›, h⟩
      · cases h
        exact .inr ⟨⟨_, ‹_›⟩, rfl⟩
  · rw [step_of_not_running hr] at h
    cases h
    exact .inl ⟨hr, rfl⟩

end Sys2Proof.Machine
end

