-- ==== Sys2Proof/Tests/Slice0.lean ====
section
/-! SUPPORT. The model's own tests. Every expected value is from the spec: 95_test_vectors.md (the vector is named), or the
example of the instruction's rule. Then the witnesses: for every statement with hypotheses, a concrete state and operands
that meet them, clause by clause. -/

namespace Sys2Proof.Tests

open Sys2Proof Sys2Proof.Machine

/-! ### Helpers -/

/-- Right after reset, with one word at 0x200 and the run started. -/
def ready (w : Word) : State := State.reset.withFetchWord 16 w.toNat

/-- A property of the state after a transition; false after a fault or a refusal. -/
def after (o : Host.Outcome State Fault Refusal) (p : State → Bool) : Bool :=
  match o with
  | .next t => p t
  | .fault _ => false
  | .refused _ => false

/-- The transition stops with a refusal (`true`) or a fault (`false`), or does not stop. -/
def stop? (o : Host.Outcome State Fault Refusal) : Option Bool :=
  match o with
  | .next _ => none
  | .fault _ => some false
  | .refused _ => some true

/-- A state whose stack pointer is `k`, as after `k` CALLs. -/
def withSp (k : Fin 17) (s : State) : State := { s with sp := k }

/-! ### Well-formedness: an ill-formed term for each check, refused -/

theorem test_shr_ignored_field_refused : (Instr.shr 0x2#4 0xF#4).wellFormed = false := by decide
theorem test_shl_ignored_field_refused : (Instr.shl 0xA#4 0xB#4).wellFormed = false := by decide
theorem test_skipNeqReg_ignored_field_refused : (Instr.skipNeqReg 0x1#4 0x2#4 0x1#4).wellFormed = false := by decide
theorem test_wellFormed_accepts : (Instr.shr 0x2#4 0x0#4).wellFormed = true ∧ (Instr.stubD 0x123#12).wellFormed = true := by
  decide

/-! ### Decoding: every constructor by a word written out from 30_encoding.md R65 -/

theorem test_decode_fixed : decode 0b0000000000000000#16 = .ok .halt ∧ decode 0b0000000011101110#16 = .ok .ret := by decide

theorem test_decode_address :
    decode 0b0001001000000100#16 = .ok (.jump 0x204#12) ∧ decode 0b0010000100000000#16 = .ok (.call 0x100#12) ∧
    decode 0b1010000100100011#16 = .ok (.setIndex 0x123#12) ∧ decode 0b1011001000010000#16 = .ok (.jumpOffset 0x210#12) := by
  decide

theorem test_decode_immediate :
    decode 0b0011101001111011#16 = .ok (.skipEq 0xA#4 0x7B#8) ∧ decode 0b0100111100000001#16 = .ok (.skipNeq 0xF#4 0x01#8) ∧
    decode 0b0110101001000010#16 = .ok (.loadImm 0xA#4 0x42#8) ∧ decode 0b0111000011111111#16 = .ok (.addImm 0x0#4 0xFF#8) ∧
    decode 0b1100001100001111#16 = .ok (.randomAnd 0x3#4 0x0F#8) := by decide

theorem test_decode_registers :
    decode 0b0101000000010000#16 = .ok (.skipEqReg 0x0#4 0x1#4) ∧ decode 0b1000111100010000#16 = .ok (.mov 0xF#4 0x1#4) ∧
    decode 0b1000111100010001#16 = .ok (.or 0xF#4 0x1#4) ∧ decode 0b1000000000010010#16 = .ok (.and 0x0#4 0x1#4) ∧
    decode 0b1000001000100011#16 = .ok (.xor 0x2#4 0x2#4) := by decide

theorem test_decode_arithmetic :
    decode 0b1000000000010100#16 = .ok (.addReg 0x0#4 0x1#4) ∧ decode 0b1000000011110101#16 = .ok (.subReg 0x0#4 0xF#4) ∧
    decode 0b1000001011110110#16 = .ok (.shr 0x2#4 0xF#4) ∧ decode 0b1000001101000111#16 = .ok (.subnReg 0x3#4 0x4#4) ∧
    decode 0b1000101010111110#16 = .ok (.shl 0xA#4 0xB#4) ∧
    decode 0b1001110011010101#16 = .ok (.skipNeqReg 0xC#4 0xD#4 0x5#4) := by decide

theorem test_decode_stubs :
    decode 0b1101000100100011#16 = .ok (.stubD 0x123#12) ∧ decode 0b1110000010011110#16 = .ok (.stubE 0x09E#12) ∧
    decode 0b1111000001100101#16 = .ok (.stubF 0x065#12) := by decide

/-- V-DEC, V-FLT: words that select no row; the byte order; a lone byte. -/
theorem test_decode_rejects :
    decode 0x00E0#16 = .error (.unknownOpcode 0x00E0#16) ∧ decode 0x0FFF#16 = .error (.unknownOpcode 0x0FFF#16) ∧
    decode 0x5011#16 = .error (.unknownOpcode 0x5011#16) ∧ decode 0x801F#16 = .error (.unknownOpcode 0x801F#16) ∧
    decodeBytes [0x14#8, 0x80#8] = .ok (.jump 0x480#12, []) ∧ decodeBytes [0x80#8] = .error .truncated ∧
    decodeTableWord 16 0x8014 = some (.addReg 0x0#4 0x1#4) ∧ decodeTableWord 16 0x8018 = none := by decide

/-- R71: the source's own assembly sample, and the word an assembler emits for an ignored field. -/
theorem test_assembly :
    (Instr.addReg 0x0#4 0x1#4).assembly = ["ADD_REG", "reg0", "reg1"] ∧
    (Instr.shl 0xF#4 0x3#4).assembly = ["SHL", "regF"] ∧ (Instr.skipEq 0xA#4 0x7B#8).assembly = ["SKIP_EQ", "regA", "0x7B"] ∧
    (Instr.jump 0x20C#12).assembly = ["JUMP", "0x20C"] ∧ assemble (.shr 0x2#4 0xF#4) = 0x8206#16 := by decide

/-! ### The step, HALT and the faults -/

/-- H1 and Z1. -/
theorem test_halt : after (step State.reset.setRunning) (fun t => t.run == .halted && t.pc == 0x202#16 && t.cause == .none) := by
  decide

/-- H2: HALT fetched at 4094. -/
theorem test_halt_at_top :
    after (step (State.reset.setPc 4094#16).setRunning) (fun t => t.run == .halted && t.pc == 4096#16) := by decide

/-- F11 and F12: no wrap to address 0. -/
theorem test_fetch_out_of_bounds :
    after (step (State.reset.setPc 4095#16).setRunning)
      (fun t => t.run == .faulted && t.cause == .outOfBoundsFetch && t.pc == 4095#16) ∧
    after (step (State.reset.setPc 0xFFFF#16).setRunning) (fun t => t.cause == .outOfBoundsFetch && t.pc == 0xFFFF#16) := by
  decide

/-- F1, F5 and F6. -/
theorem test_unknown :
    after (step (ready 0x00E0#16)) (fun t => t.run == .faulted && t.cause == .unknownOpcode && t.pc == 0x202#16) ∧
    after (step (ready 0x5011#16)) (fun t => t.cause.code == 4#3) ∧
    after (step (ready 0x8018#16)) (fun t => t.cause.code == 4#3) := by decide

/-- F7 to F9. -/
theorem test_stubs :
    after (step (ready 0xD123#16)) (fun t => t.run == .faulted && t.cause == .notImplemented && t.pc == 0x202#16) ∧
    after (step (ready 0xE09E#16)) (fun t => t.cause.code == 5#3) ∧
    after (step (ready 0xF065#16)) (fun t => t.cause.code == 5#3 && t.idx == 0x0000#16) := by decide

/-- R80: in IDLE the block takes no step; the reset state rests. -/
theorem test_idle_rests : after (step State.reset) (fun t => t == State.reset) := by decide

/-! ### Control transfer -/

/-- J1 at 0x200, and an odd target (J4). -/
theorem test_jump :
    after (step (ready 0x1204#16)) (fun t => t.pc == 0x204#16) ∧ after (step (ready 0x1205#16)) (fun t => t.pc == 0x205#16) := by
  decide

/-- K1 and K2's slot 3. -/
theorem test_call :
    after (step (ready 0x2100#16)) (fun t => t.slot 0x0#4 == 0x0202#16 && t.sp.val == 1 && t.pc == 0x100#16) ∧
    after (step (withSp 3 (ready 0x2ABC#16))) (fun t => t.slot 0x3#4 == 0x0202#16 && t.sp.val == 4 && t.pc == 0xABC#16) := by
  decide

/-- K3. -/
theorem test_call_full :
    after (step (withSp 16 (ready 0x2100#16)))
      (fun t => t.run == .faulted && t.cause.code == 1#3 && t.pc == 0x202#16 && t.sp.val == 16) := by decide

/-- The stack after a CALL at 0x200, about to execute a RETURN that follows. -/
def called : State :=
  { ready 0x00EE#16 with stk := State.reset.stk.set 0 0x0202#16, sp := 1 }

/-- R1: the popped slot keeps its contents. -/
theorem test_return :
    after (step called) (fun t => t.sp.val == 0 && t.pc == 0x0202#16 && t.slot 0x0#4 == 0x0202#16 && t.run == .running) := by
  decide

/-- R2. -/
theorem test_return_empty :
    after (step (ready 0x00EE#16)) (fun t => t.run == .faulted && t.cause.code == 2#3 && t.pc == 0x202#16 && t.sp.val == 0) := by
  decide

/-- B1 and B3: the sum kept whole. -/
theorem test_jumpOffset :
    after (step ((ready 0xB210#16).setReg 0x0#4 0x04#8)) (fun t => t.pc == 0x214#16) ∧
    after (step ((ready 0xBFFF#16).setReg 0x0#4 0xFF#8)) (fun t => t.pc == 0x10FE#16 && t.reg 0xF#4 == 0x00#8) := by decide

/-! ### Skips -/

/-- Q1, Q2, Q3. -/
theorem test_skipEq :
    after (step (ready 0x3000#16)) (fun t => t.pc == 0x204#16) ∧
    after (step ((ready 0x3000#16).setReg 0x0#4 0x01#8)) (fun t => t.pc == 0x202#16) ∧
    after (step ((ready 0x3F01#16).setReg 0xF#4 0x01#8)) (fun t => t.pc == 0x204#16) := by decide

/-- Q4, Q5. -/
theorem test_skipNeq :
    after (step (ready 0x4000#16)) (fun t => t.pc == 0x202#16) ∧
    after (step ((ready 0x4000#16).setReg 0x0#4 0xFF#8)) (fun t => t.pc == 0x204#16) := by decide

/-- Q6, Q7. -/
theorem test_skipEqReg :
    after (step (((ready 0x5010#16).setReg 0x0#4 0x07#8).setReg 0x1#4 0x07#8)) (fun t => t.pc == 0x204#16) ∧
    after (step (((ready 0x5010#16).setReg 0x0#4 0x07#8).setReg 0x1#4 0x08#8)) (fun t => t.pc == 0x202#16) := by decide

/-- Q10, Q11, Q12. -/
theorem test_skipNeqReg :
    after (step ((ready 0x9010#16).setReg 0x0#4 0x01#8)) (fun t => t.pc == 0x204#16) ∧
    after (step (ready 0x9010#16)) (fun t => t.pc == 0x202#16) ∧
    after (step ((ready 0x9011#16).setReg 0x0#4 0x01#8)) (fun t => t.pc == 0x204#16) := by decide

/-! ### Immediates -/

/-- I1, I2. -/
theorem test_loadImm :
    after (step (ready 0x6A42#16)) (fun t => t.reg 0xA#4 == 0x42#8 && t.pc == 0x202#16) ∧
    after (step ((ready 0x6F80#16).setReg 0xF#4 0x01#8)) (fun t => t.reg 0xF#4 == 0x80#8) := by decide

/-- I4, I6, I7: a wrap without a flag; an earlier flag survives; register 15 as the destination. -/
theorem test_addImm :
    after (step ((ready 0x7001#16).setReg 0x0#4 0xFF#8)) (fun t => t.reg 0x0#4 == 0x00#8 && t.reg 0xF#4 == 0x00#8) ∧
    after (step (((ready 0x7105#16).setReg 0x1#4 0xFE#8).setReg 0xF#4 0x01#8))
      (fun t => t.reg 0x1#4 == 0x03#8 && t.reg 0xF#4 == 0x01#8) ∧
    after (step ((ready 0x7F02#16).setReg 0xF#4 0xFF#8)) (fun t => t.reg 0xF#4 == 0x01#8) := by decide

/-- I8, I9. -/
theorem test_setIndex :
    after (step (ready 0xA123#16)) (fun t => t.idx == 0x0123#16) ∧
    after (step ((ready 0xAFFF#16).setIdx 0x0123#16)) (fun t => t.idx == 0x0FFF#16) := by decide

/-! ### Class 8 (V-ALU, V-ALIAS) -/

/-- A word of class 8 with `x[0] = a`, `x[1] = b`: what `x[0]`, `x[1]` and `x[15]` are after the step. -/
def alu (w : Word) (a b : Byte) (r f : Byte) : Bool :=
  after (step (((ready w).setReg 0x0#4 a).setReg 0x1#4 b))
    (fun t => t.reg 0x0#4 == r && t.reg 0x1#4 == b && t.reg 0xF#4 == f && t.pc == 0x202#16)

theorem test_mov : alu 0x8010#16 0x3C#8 0x0F#8 0x0F#8 0x00#8 := by decide
theorem test_or : alu 0x8011#16 0x3C#8 0x0F#8 0x3F#8 0x00#8 := by decide
theorem test_and : alu 0x8012#16 0x3C#8 0x0F#8 0x0C#8 0x00#8 := by decide
theorem test_xor : alu 0x8013#16 0x3C#8 0x0F#8 0x33#8 0x00#8 := by decide
theorem test_addReg :
    alu 0x8014#16 0x05#8 0x0A#8 0x0F#8 0x00#8 ∧ alu 0x8014#16 0xFA#8 0x0A#8 0x04#8 0x01#8 ∧
    alu 0x8014#16 0x7F#8 0x80#8 0xFF#8 0x00#8 ∧ alu 0x8014#16 0xFF#8 0x01#8 0x00#8 0x01#8 := by decide
theorem test_subReg :
    alu 0x8015#16 0xFF#8 0xFF#8 0x00#8 0x00#8 ∧ alu 0x8015#16 0x80#8 0x7F#8 0x01#8 0x01#8 ∧
    alu 0x8015#16 0x00#8 0x01#8 0xFF#8 0x00#8 := by decide
theorem test_shr : alu 0x8016#16 0x55#8 0xFF#8 0x2A#8 0x01#8 ∧ alu 0x8016#16 0x80#8 0xFF#8 0x40#8 0x00#8 := by decide
theorem test_subnReg : alu 0x8017#16 0x00#8 0xFF#8 0xFF#8 0x01#8 ∧ alu 0x8017#16 0x01#8 0x00#8 0xFF#8 0x00#8 := by decide
theorem test_shl : alu 0x801E#16 0xAA#8 0xFF#8 0x54#8 0x01#8 ∧ alu 0x801E#16 0x7F#8 0xFF#8 0xFE#8 0x00#8 := by decide

/-- A word of class 8 with `x[i] = a`, `x[15] = f`: what `x[i]` and `x[15]` are after the step. -/
def aliased (w : Word) (i : RegIdx) (a f r g : Byte) : Bool :=
  after (step (((ready w).setReg i a).setReg 0xF#4 f)) (fun t => t.reg i == r && t.reg 0xF#4 == g)

theorem test_addReg_alias :
    aliased 0x8F14#16 0x1#4 100#8 200#8 100#8 1#8 ∧ aliased 0x80F4#16 0x0#4 250#8 10#8 4#8 1#8 := by decide
theorem test_subReg_alias :
    aliased 0x8F15#16 0x1#4 3#8 9#8 3#8 6#8 ∧ aliased 0x80F5#16 0x0#4 9#8 3#8 6#8 1#8 ∧
    aliased 0x80F5#16 0x0#4 3#8 9#8 0xFA#8 0#8 := by decide
theorem test_subnReg_alias : aliased 0x8F17#16 0x1#4 9#8 3#8 9#8 6#8 ∧ aliased 0x80F7#16 0x0#4 3#8 9#8 6#8 1#8 := by decide
theorem test_shr_alias : aliased 0x8F06#16 0x0#4 0#8 0x07#8 0#8 0x03#8 := by decide
theorem test_shl_alias : aliased 0x8F0E#16 0x0#4 0#8 0x41#8 0#8 0x82#8 := by decide

/-- The last column of R130's table: the other reading, which the model carries and does not take. -/
theorem test_sequential :
    ((State.reset.setReg 0xF#4 9#8).setReg 0x1#4 3#8 |>.subReg .sequential 0xF#4 0x1#4).reg 0xF#4 = 0xFE#8 ∧
    ((State.reset.setReg 0xF#4 9#8).setReg 0x0#4 3#8 |>.subReg .sequential 0x0#4 0xF#4).reg 0x0#4 = 3#8 ∧
    ((State.reset.setReg 0xF#4 3#8).setReg 0x1#4 9#8 |>.subnReg .sequential 0xF#4 0x1#4).reg 0xF#4 = 8#8 ∧
    ((State.reset.setReg 0xF#4 9#8).setReg 0x0#4 3#8 |>.subnReg .sequential 0x0#4 0xF#4).reg 0x0#4 = 0xFE#8 ∧
    ((State.reset.setReg 0xF#4 0x07#8).shrReg .sequential 0xF#4).reg 0xF#4 = 0x00#8 ∧
    ((State.reset.setReg 0xF#4 0x81#8).shlReg .sequential 0xF#4).reg 0xF#4 = 0x02#8 := by decide

/-! ### RANDOM_AND (V-RND) -/

/-- The masked byte for the drawn byte of each vector. -/
theorem test_random_mask :
    (State.reset.maskInto 0x3#4 0x0F#8 0xA7#8).reg 0x3#4 = 0x07#8 ∧ (State.reset.maskInto 0x4#4 0xFF#8 0xFE#8).reg 0x4#4 = 0xFE#8 ∧
    (State.reset.maskInto 0x5#4 0x00#8 0x33#8).reg 0x5#4 = 0x00#8 ∧
    (State.reset.maskInto 0xF#4 0x01#8 0x03#8).reg 0xF#4 = 0x01#8 := by decide

/-- The step takes exactly one byte, whatever the mask is. -/
theorem test_random_draws : after (step (ready 0xC500#16)) (fun t => t.drawn == 1 && t.pc == 0x202#16) := by decide

/-! ### The host (V-RST) and memory -/

/-- Z1 to Z3, and a write at an address that does not exist. -/
theorem test_host :
    after (hostMove .reset (withSp 5 ((ready 0x6001#16).raise .notImplemented))) (fun t => t == State.reset) ∧
    after (hostMove .start State.reset) (fun t => t == State.reset.setRunning) ∧
    after (hostMove .start State.reset.halt) (fun t => t == State.reset.halt) ∧
    stop? (hostMove (.writePc 0x300#16) (ready 0x0000#16)) = some true ∧
    stop? (hostMove (.writeMem 4096 0x01#8) State.reset) = some false ∧
    after (hostMove (.writeMem 4095 0x01#8) State.reset) (fun t => t.mem == [(4095, 0x01#8)]) := by decide

/-- Writing what an unlisted address reads as removes the entry. -/
theorem test_memory_canonical :
    ((State.reset.writeByte 0x201 0x14#8).writeByte 0x200 0x80#8).mem = [(0x200, 0x80#8), (0x201, 0x14#8)] ∧
    ((State.reset.writeByte 0x201 0x14#8).writeByte 0x201 0x00#8) = State.reset := by decide

/-- The two codes of the status output for a faulted run (R22, R23). -/
theorem test_status : (State.reset.raise .outOfBoundsFetch).status = (3#2, 3#3) ∧ State.reset.halt.result = some State.reset.x := by
  decide

/-! ### Witnesses: every statement's hypotheses are met by a concrete state and operands, clause by clause -/

theorem witness_DecodedWordEncodesToItself : decode 0x82F6#16 = .ok (.shr 0x2#4 0xF#4) := by decide

theorem witness_DecoderRejectsExactlyTheUnknownWords :
    UnknownWord 0x0001 ∧ UnknownWord 0x0FFF ∧ UnknownWord 0x5001 ∧ UnknownWord 0x8008 := by decide

theorem witness_DecoderRejectsExactlyTheUnknownWords_known :
    ¬UnknownWord 0x00EE ∧ ¬UnknownWord 0x0000 ∧ ¬UnknownWord 0x5FF0 ∧ ¬UnknownWord 0x800E := by decide

theorem witness_FetchOutOfBoundsRaises :
    (State.reset.setPc 4095#16).setRunning.run = .running ∧ (State.reset.setPc 4095#16).setRunning.pc.toNat + 1 > 4095 := by
  decide

/-- A memory with the same two bytes at 0x200 and 0x201 and another one elsewhere. -/
theorem witness_StepReadsOnlyTheTwoFetchedBytes :
    (ready 0x6A42#16).pc.toNat ≤ 4094 ∧ after (step (ready 0x6A42#16)) (fun _ => true) ∧
    ((ready 0x6A42#16).withMem [(0x100, 0x01#8), (0x200, 0x6A#8), (0x201, 0x42#8)]).memRead 0x200 =
      (ready 0x6A42#16).memRead 0x200 ∧
    ((ready 0x6A42#16).withMem [(0x100, 0x01#8), (0x200, 0x6A#8), (0x201, 0x42#8)]).memRead 0x201 =
      (ready 0x6A42#16).memRead 0x201 := by decide

theorem witness_StepRunsTheDecodedInstruction :
    (ready 0x6A42#16).run = .running ∧ (ready 0x6A42#16).pc.toNat ≤ 4094 ∧ (ready 0x6A42#16).memRead 0x200 = some 0x6A#8 ∧
    (ready 0x6A42#16).memRead 0x201 = some 0x42#8 ∧ decode (wordOfBytes 0x6A#8 0x42#8) = .ok (.loadImm 0xA#4 0x42#8) := by
  decide

theorem witness_UnknownWordRaisesUnknownOpcode : FetchesWord (ready 0x00E0#16) 0x00E0#16 ∧ UnknownWord 0x00E0 := by decide

/-- One fetched instruction, one unknown word, and a `pc` at the bound. -/
theorem witness_PcAfterEveryStep :
    FetchesWord (ready 0x1FFF#16) 0x1FFF#16 ∧ decode 0x1FFF#16 = .ok (.jump 0xFFF#12) ∧
    FetchesWord (ready 0x801F#16) 0x801F#16 ∧ UnknownWord 0x801F ∧ (State.reset.setPc 4095#16).setRunning.pc.toNat ≥ 4095 := by
  decide

theorem witness_EveryStateHasANextState : State.reset.run ≠ .running ∧ (ready 0x0000#16).run = .running := by decide

/-- Its three clauses: the bound, an unknown word, a CALL with a full stack; each step answers a next state. -/
theorem witness_FaultsAreExactlyTheFive :
    after (step (State.reset.setPc 4095#16).setRunning) (fun _ => true) ∧
    (FetchesWord (ready 0x01EE#16) 0x01EE#16 ∧ UnknownWord 0x01EE ∧ after (step (ready 0x01EE#16)) (fun _ => true)) ∧
    FetchesWord (withSp 16 (ready 0x2100#16)) 0x2100#16 ∧ decode 0x2100#16 = .ok (.call 0x100#12) ∧
    after (step (withSp 16 (ready 0x2100#16))) (fun _ => true) ∧
    faultOf (withSp 16 (ready 0x2100#16)) (.call 0x100#12) = some .stackOverflow := by decide

theorem witness_FaultsArePrecise :
    (ready 0xF065#16).run = .running ∧ after (step (ready 0xF065#16)) (fun t => t.run == .faulted) ∧
    after (step (State.reset.setPc 0xFFFF#16).setRunning) (fun t => t.run == .faulted) := by decide

theorem witness_EndedRunsAreFrozenUntilReset :
    (State.reset.raise .unknownOpcode).run = .faulted ∧ State.reset.halt.run = .halted ∧ HostMove.start ≠ .reset ∧
    after (hostMove .start State.reset.halt) (fun _ => true) := by decide

/-- The entry state of `exec`: `pc = p + 2` (HALT, CALL full, RETURN empty, the skips, the immediates, class 8, RANDOM_AND
and the stubs take it as their hypothesis). -/
theorem witness_advanced_entry : (ready 0x0000#16).advance.pc = 0x200#16 + 2#16 := by decide

/-- The masks of the decoding clauses, one word for each row. -/
theorem witness_decoding_masks :
    0x1204#16 &&& 0xF000#16 = 0x1000#16 ∧ 0x2100#16 &&& 0xF000#16 = 0x2000#16 ∧ 0x3A7B#16 &&& 0xF000#16 = 0x3000#16 ∧
    0x4F01#16 &&& 0xF000#16 = 0x4000#16 ∧ 0x5010#16 &&& 0xF00F#16 = 0x5000#16 ∧ 0x6A42#16 &&& 0xF000#16 = 0x6000#16 ∧
    0x70FF#16 &&& 0xF000#16 = 0x7000#16 ∧ 0x8F10#16 &&& 0xF00F#16 = 0x8000#16 ∧ 0x8F11#16 &&& 0xF00F#16 = 0x8001#16 ∧
    0x8012#16 &&& 0xF00F#16 = 0x8002#16 ∧ 0x8223#16 &&& 0xF00F#16 = 0x8003#16 ∧ 0x8014#16 &&& 0xF00F#16 = 0x8004#16 ∧
    0x80F5#16 &&& 0xF00F#16 = 0x8005#16 ∧ 0x82F6#16 &&& 0xF00F#16 = 0x8006#16 ∧ 0x8347#16 &&& 0xF00F#16 = 0x8007#16 ∧
    0x8ABE#16 &&& 0xF00F#16 = 0x800E#16 ∧ 0x9CD5#16 &&& 0xF000#16 = 0x9000#16 ∧ 0xA123#16 &&& 0xF000#16 = 0xA000#16 ∧
    0xB210#16 &&& 0xF000#16 = 0xB000#16 ∧ 0xC30F#16 &&& 0xF000#16 = 0xC000#16 ∧ 0xD123#16 &&& 0xF000#16 = 0xD000#16 ∧
    0xE09E#16 &&& 0xF000#16 = 0xE000#16 ∧ 0xF065#16 &&& 0xF000#16 = 0xF000#16 := by decide

/-- The self-jump, and the jump to 0xFFF with its two steps. -/
theorem witness_JumpSetsPc :
    FetchesWord (ready 0x1200#16) (wordA 0x1#4 0x200#12) ∧ (ready 0x1200#16).pc.toNat = (0x200#12 : Addr12).toNat ∧
    FetchesWord (ready 0x1FFF#16) 0x1FFF#16 ∧
    after (step (ready 0x1FFF#16)) (fun t => after (step t) (fun u => u.run == .faulted)) := by decide

/-- `sp` at both ends of the range of each clause: 0 and 15 for the push, 16 for the overflow. -/
theorem witness_CallPushesAndJumps :
    (ready 0x2100#16).advance.pc = 0x200#16 + 2#16 ∧ (withSp 0 State.reset).sp.val = (0x0#4 : Nibble).toNat ∧
    (withSp 15 State.reset).sp.val = (0xF#4 : Nibble).toNat ∧ (withSp 16 State.reset).sp.val = 16 := by decide

/-- `sp` at both ends of the range of each clause: 1 and 16 for the pop, 0 for the underflow. -/
theorem witness_ReturnPopsIntoPc :
    called.advance.pc = 0x200#16 + 2#16 ∧ (withSp 1 State.reset).sp.val = (0x0#4 : Nibble).toNat + 1 ∧
    (withSp 16 State.reset).sp.val = (0xF#4 : Nibble).toNat + 1 ∧ (withSp 0 State.reset).sp.val = 0 := by decide

theorem witness_SkipEqRegSkipsOnEqual :
    (0x1#4 : Nibble) ≠ 0x0#4 ∧ FetchesWord (ready 0x5011#16) (wordOfNibbles 0x5#4 0x0#4 0x1#4 0x1#4) := by decide

theorem witness_AliasReadingsDifferOnlyAtRegister15 : (0x0#4 : RegIdx) ≠ 0xF#4 ∧ (0xE#4 : RegIdx) ≠ 0xF#4 := by decide

theorem witness_OnlyRandomAndTakesARandomByte :
    after (exec (.randomAnd 0x0#4 0xFF#8) State.reset) (fun _ => true) ∧ ∀ x kk, Instr.halt ≠ .randomAnd x kk :=
  ⟨by decide, fun _ _ h => nomatch h⟩

/-- Register files that agree on what the instruction reads and differ elsewhere. -/
theorem witness_RegistersReadAndWrittenByTheTable :
    (∀ r ∈ readRegs (.mov 0x0#4 0x1#4), (State.reset.withRegs (State.reset.x.set 2 0x55#8)).reg r = State.reset.reg r) ∧
    State.reset.withRegs (State.reset.x.set 2 0x55#8) ≠ State.reset := by decide

theorem witness_FlagRegisterByTheTable :
    (writtenRegs (.addReg 0x0#4 0x1#4)).head? ≠ some 0xF#4 ∧ 0xF#4 ∉ writtenRegs (.addImm 0x0#4 0x01#8) := by decide

theorem witness_PushAndPop :
    (withSp 16 State.reset).sp.val = 16 ∧ (withSp 15 State.reset).sp.val = (0xF#4 : Nibble).toNat ∧
    (withSp 0 State.reset).sp.val = 0 ∧ (withSp 16 State.reset).sp.val = (0xF#4 : Nibble).toNat + 1 := by decide

theorem witness_ReturnUndoesCall : (withSp 15 State.reset).sp.val ≠ 16 ∧
    after (exec (.call 0x300#12) (withSp 15 State.reset)) (fun t => t.sp.val == 16) := by decide

theorem witness_CallStackIsABoundedList :
    (∀ nnn, Instr.halt ≠ .call nnn) ∧ Instr.halt ≠ .ret ∧ after (exec .halt State.reset) (fun _ => true) :=
  ⟨(fun _ h => nomatch h), by decide, by decide⟩

theorem witness_SixteenCallsFitASeventeenthOverflows :
    State.reset.sp.val + (List.replicate 16 (0x200#12 : Addr12)).length ≤ 16 ∧
    (List.replicate 16 (0x200#12 : Addr12)).length = 16 ∧ State.reset.sp.val = 0 := by decide

theorem witness_InstructionsNeitherReadNorWriteMemory : after (step (ready 0x2100#16)) (fun _ => true) := by decide

theorem witness_CanonicalMemoriesThatReadAlikeAreEqual : Memory.wf [(0x200, 0x80#8), (0x201, 0x14#8)] := by decide

theorem witness_ResetFromAnyRunState :
    State.reset.halt.run = .halted ∧ after (hostMove .start State.reset.halt) (fun _ => true) ∧
    HostMove.start ≠ .reset ∧ after (step State.reset.halt) (fun _ => true) := by decide

theorem witness_StartActsInIdleOnly : State.reset.run = .idle ∧ State.reset.halt.run ≠ .idle := by decide

/-- The addresses at the ends of the two ranges: 0 and 4095, and 4096. -/
theorem witness_HostLoadsWhileIdleOnly :
    State.reset.run = .idle ∧ State.reset.mem.wf ∧ 0 ≤ 4095 ∧ 4095 ≤ 4095 ∧ 4096 ≤ 4096 ∧ (ready 0x0000#16).run ≠ .idle :=
  ⟨by decide, reset_mem_wf, by decide, by decide, by decide, by decide⟩

theorem witness_ResultOfferedOnlyWhenHalted :
    State.reset.halt.run = .halted ∧ State.reset.run ≠ .halted ∧ State.reset.status = State.reset.status ∧
    State.reset.readout.isSome = true := by decide

theorem witness_NextStepRunsThePlacedWord :
    State.reset.mem.wf ∧ decode 0x8014#16 = .ok (.addReg 0x0#4 0x1#4) ∧ State.reset.pc.toNat ≤ 4094 :=
  ⟨reset_mem_wf, by decide, by decide⟩

/-- The reset state meets the invariant's checks that a computation can run; it takes a step and host actions, and it is
reachable. -/
theorem witness_invariant_statements :
    after (step State.reset) (fun _ => true) ∧ after (hostMove .start State.reset) (fun _ => true) ∧
    after (hostMove (.writeMem 0x200 0x12#8) State.reset) (fun _ => true) ∧ Reachable State.reset :=
  ⟨by decide, by decide, by decide, .reset⟩

/-- A running state that meets the invariant (it is reachable: reset, then the host's load of `pc` and `start`), on both
sides of the fetch bound. -/
theorem witness_PcNeverWraps (v : Word) : Reachable (State.reset.setPc v).setRunning :=
  .host .start (State.reset.setPc v) _ (.host (.writePc v) State.reset _ .reset rfl) rfl

theorem witness_PcNeverWraps_bounds :
    (4094#16 : Word).toNat ≤ 4094 ∧ 4095 ≤ (4095#16 : Word).toNat ∧
    after (step (State.reset.setPc 4094#16).setRunning) (fun t => t.run == .halted) ∧
    after (step (State.reset.setPc 4095#16).setRunning) (fun t => t.run == .faulted) := by decide

theorem witness_SelfJumpRunsForEver :
    FetchesWord (ready 0x1200#16) (wordA 0x1#4 0x200#12) ∧ (ready 0x1200#16).pc.toNat = (0x200#12 : Addr12).toNat := by
  decide

end Sys2Proof.Tests
end

/-! SUPPORT. Facts about the state's operations that the statements of 10_state.md share: a stack slot by its number,
the saved return addresses after a push and a pop, and what one host action can do. -/

namespace Sys2Proof.Machine

namespace State

variable (s : State)

/-! ### Stack slots -/

/-- A slot by its number below 16. -/
theorem slot_ofNat {k : Nat} (hk : k < 16) : s.slot (BitVec.ofNat 4 k) = s.stk[k] := by
  simp [slot, Nat.mod_eq_of_lt hk]

@[simp] theorem withDrawn_slot (n : Nat) (j : Nibble) : (s.withDrawn n).slot j = s.slot j := rfl

@[simp] theorem reset_slot (j : Nibble) : State.reset.slot j = 0x0000#16 := by simp [slot, State.reset]

/-! ### The saved return addresses (10_state.md R18 to R20) -/

theorem length_saved : s.saved.length = s.sp.val := by
  have := s.sp.isLt
  simp only [saved, List.length_reverse, List.length_take, Vector.length_toList]
  omega

variable {s} {t : State}

theorem saved_congr (hstk : t.stk = s.stk) (hsp : t.sp = s.sp) : t.saved = s.saved := by simp only [saved, hstk, hsp]

theorem saved_empty (h : s.sp.val = 0) : s.saved = [] := by simp [saved, h]

/-- The slots below `sp`, with the one at `sp - 1` in front. -/
theorem saved_of_ne_zero (h : s.sp.val ≠ 0) (ht : t.stk = s.stk) (hsp : t.sp.val = s.sp.val - 1) :
    s.saved = s.stk[s.sp.val - 1]'(by omega) :: t.saved := by
  obtain ⟨k, hk⟩ := Nat.exists_eq_succ_of_ne_zero h
  have := s.sp.isLt
  simp only [saved, ht, hsp, hk, Nat.succ_eq_add_one, Nat.add_sub_cancel]
  rw [List.take_add_one, List.getElem?_eq_getElem (by simp; omega)]
  simp

/-- A push puts its value in front. -/
theorem saved_push (h : s.sp.val ≠ 16) (v : Word) (ht : t.stk = s.stk.set s.sp.val v (by omega))
    (hsp : t.sp.val = s.sp.val + 1) : t.saved = v :: s.saved := by
  have := s.sp.isLt
  simp only [saved, ht, hsp, Vector.toList_set]
  rw [List.take_add_one, List.getElem?_eq_getElem (by simp; omega)]
  simp [List.take_set, List.set_eq_of_length_le]

end State

/-! ### Host actions -/

section
variable {s t : State}

theorem whileIdle_of_idle (h : s.run = .idle) (o : Host.Outcome State Fault Refusal) : s.whileIdle o = o := by
  simp only [State.whileIdle, h]

theorem whileIdle_of_not_idle (h : s.run ≠ .idle) (o : Host.Outcome State Fault Refusal) :
    s.whileIdle o = .refused .hostAccessOutsideIdle := by
  simp only [State.whileIdle]
  split
  · contradiction
  all_goals rfl

theorem start_of_idle (h : s.run = .idle) : s.start = s.setRunning := by simp only [State.start, h]

theorem start_of_not_idle (h : s.run ≠ .idle) : s.start = s := by
  simp only [State.start]
  split
  · contradiction
  all_goals rfl

theorem hostWriteMem_of_lt {a : Nat} (h : a < 4096) (v : Byte) : s.hostWriteMem a v = .next (s.writeByte a v) := by
  simp [State.hostWriteMem, Config.memSize, h]

theorem hostWriteMem_of_le {a : Nat} (h : 4096 ≤ a) (v : Byte) : s.hostWriteMem a v = .fault (.noSuchAddress a) := by
  simp [State.hostWriteMem, Config.memSize, Nat.not_lt.2 h]

/-- Everything a host action that answers a next state can do: reset, one of the three loads or `start` in IDLE, or
`start` without effect elsewhere (10_state.md R30, R31, R33). -/
theorem hostMove_cases {m : HostMove} (h : hostMove m s = .next t) :
    (m = .reset ∧ t = s.resetBlock) ∨
    (s.run = .idle ∧ ((∃ a v, a < Config.memSize ∧ t = s.writeByte a v) ∨ (∃ r v, t = s.setReg r v) ∨
      (∃ v, t = s.setPc v) ∨ t = s.setRunning)) ∨
    (s.run ≠ .idle ∧ t = s) := by
  by_cases hi : s.run = .idle
  · cases m with
    | reset => cases h; exact .inl ⟨rfl, rfl⟩
    | writeMem a v =>
      simp only [hostMove, whileIdle_of_idle hi, State.hostWriteMem] at h
      split at h
      · cases h; exact .inr (.inl ⟨hi, .inl ⟨a, v, ‹_›, rfl⟩⟩)
      · cases h
    | writeReg r v =>
      simp only [hostMove, whileIdle_of_idle hi] at h
      cases h; exact .inr (.inl ⟨hi, .inr (.inl ⟨r, v, rfl⟩)⟩)
    | writePc v =>
      simp only [hostMove, whileIdle_of_idle hi] at h
      cases h; exact .inr (.inl ⟨hi, .inr (.inr (.inl ⟨v, rfl⟩))⟩)
    | start =>
      simp only [hostMove, start_of_idle hi] at h
      cases h; exact .inr (.inl ⟨hi, .inr (.inr (.inr rfl))⟩)
  · cases m with
    | reset => cases h; exact .inl ⟨rfl, rfl⟩
    | writeMem | writeReg | writePc => simp [hostMove, whileIdle_of_not_idle hi] at h
    | start =>
      simp only [hostMove, start_of_not_idle hi] at h
      cases h; exact .inr (.inr ⟨hi, rfl⟩)

end

end Sys2Proof.Machine

/-! SUPPORT and proofs. The invariant of the reachable states, kept by every step and every host action. -/

namespace Sys2Proof.Machine

namespace State.Inv

variable {s t : State}

theorem cause_eq_none (h : s.Inv) (hr : s.run ≠ .faulted) : s.cause = .none :=
  not_not.1 fun hc => hr (h.cause_iff.1 hc)

/-- In RUNNING the invariant is about `cause`, `idx`, the slots and memory only. -/
theorem of_running (hr : t.run = .running) (hc : t.cause = .none) (hi : t.idx.toNat ≤ 4095)
    (hs : ∀ j, (t.slot j).toNat ≤ 4096) (hm : t.mem.wf) : t.Inv := by
  refine ⟨?_, hi, hs, hm, ?_, ?_, ?_, ?_, ?_, ?_, ?_, ?_⟩ <;> simp [hr, hc]

/-- An ended run halted just after a fetched word. -/
theorem halt (h : s.Inv) (hr : s.run = .running) (hpc : 2 ≤ s.pc.toNat ∧ s.pc.toNat ≤ 4096) : s.halt.Inv where
  cause_iff := by simp [h.cause_eq_none (by simp [hr])]
  idx_low := h.idx_low
  slot_low := h.slot_low
  mem_wf := h.mem_wf
  halted_pc _ := hpc
  faulted_pc hf := nomatch hf
  faulted_fetch := h.faulted_fetch
  overflow_sp := h.overflow_sp
  underflow_sp := h.underflow_sp
  idle_sp hi := nomatch hi
  idle_idx hi := nomatch hi
  idle_slot hi := nomatch hi

/-- A raise keeps the invariant when the cause fits the place of `pc` and the stack pointer. -/
theorem raise (h : s.Inv) {c : Cause} (hc : c ≠ .none)
    (hpc : c ≠ .outOfBoundsFetch → 2 ≤ s.pc.toNat ∧ s.pc.toNat ≤ 4096)
    (hfetch : c = .outOfBoundsFetch → 4095 ≤ s.pc.toNat) (hover : c = .stackOverflow → s.sp.val = 16)
    (hunder : c = .stackUnderflow → s.sp.val = 0) : (s.raise c).Inv where
  cause_iff := iff_of_true hc rfl
  idx_low := h.idx_low
  slot_low := h.slot_low
  mem_wf := h.mem_wf
  halted_pc hr := nomatch hr
  faulted_pc _ := hpc
  faulted_fetch := hfetch
  overflow_sp := hover
  underflow_sp := hunder
  idle_sp hi := nomatch hi
  idle_idx hi := nomatch hi
  idle_slot hi := nomatch hi

/-- An update of a running state that leaves `run`, `cause` and memory keeps the invariant if `idx` and the slots stay
low. -/
theorem update_running (h : s.Inv) (hs : s.run = .running) (hr : t.run = s.run) (hc : t.cause = s.cause)
    (hm : t.mem = s.mem) (hi : t.idx.toNat ≤ 4095) (hj : ∀ j, (t.slot j).toNat ≤ 4096) : t.Inv :=
  of_running (hr.trans hs) (hc.trans (h.cause_eq_none (by simp [hs]))) hi hj (hm ▸ h.mem_wf)

/-- The execute part keeps the invariant: `pc` is just after a fetched word, which is where a run halts or faults and
what a CALL pushes. -/
theorem exec (h : s.Inv) (hr : s.run = .running) (hpc : 2 ≤ s.pc.toNat ∧ s.pc.toNat ≤ 4096) {i : Instr}
    (he : exec i s = .next t) : t.Inv := by
  have running {u : State} (hu : u.run = s.run) (hc : u.cause = s.cause) (hm : u.mem = s.mem) :=
    h.update_running hr hu hc hm
  rcases exec_cases i he with ⟨x', rfl⟩ | ⟨x', rfl⟩ | ⟨nnn, rfl⟩ | ⟨v, rfl⟩ | ⟨hsp, nnn, rfl⟩ | ⟨hsp, rfl⟩ | rfl |
    ⟨rfl, hsp⟩ | ⟨rfl, hsp⟩ | rfl
  · exact running rfl rfl rfl h.idx_low h.slot_low
  · exact running rfl rfl rfl h.idx_low h.slot_low
  · refine running rfl rfl rfl ?_ h.slot_low
    rw [setIdx_idx, toNat_addrOperand]
    exact Nat.le_of_lt_succ nnn.isLt
  · exact running rfl rfl rfl h.idx_low h.slot_low
  · refine running rfl rfl rfl h.idx_low fun j => ?_
    refine (congrArg BitVec.toNat (slot_set_stk (s := s) s.sp.val (by omega) s.pc j)).trans_le ?_
    split
    · exact hpc.2
    · exact h.slot_low j
  · exact running rfl rfl rfl h.idx_low h.slot_low
  · exact h.halt hr hpc
  · exact h.raise (by simp) (fun _ => hpc) (by simp) (fun _ => hsp) (by simp)
  · exact h.raise (by simp) (fun _ => hpc) (by simp) (by simp) (fun _ => hsp)
  · exact h.raise (by simp) (fun _ => hpc) (by simp) (by simp) (by simp)

/-- The advance of a running state keeps the invariant. -/
theorem advance (h : s.Inv) (hr : s.run = .running) : s.advance.Inv :=
  h.update_running hr rfl rfl rfl h.idx_low h.slot_low

/-- The reset state meets the invariant, whatever the supplier's count is. -/
theorem reset_withDrawn (n : Nat) : (State.reset.withDrawn n).Inv where
  cause_iff := by simp [State.withDrawn, State.reset]
  idx_low := by simp [State.withDrawn, State.reset]
  slot_low j := by simp
  mem_wf := reset_mem_wf
  halted_pc hr := nomatch hr
  faulted_pc hr := nomatch hr
  faulted_fetch hc := nomatch hc
  overflow_sp hc := nomatch hc
  underflow_sp hc := nomatch hc
  idle_sp _ := rfl
  idle_idx _ := rfl
  idle_slot _ := reset_slot

/-- `start` in IDLE keeps the invariant. -/
theorem setRunning (h : s.Inv) (hi : s.run = .idle) : s.setRunning.Inv :=
  of_running rfl (h.cause_eq_none (by simp [hi])) h.idx_low h.slot_low h.mem_wf

/-- A host load, which writes memory, a register or `pc` in IDLE, keeps the invariant. -/
theorem update_idle (h : s.Inv) (hs : s.run = .idle) (hr : t.run = s.run) (hc : t.cause = s.cause) (hm : t.mem.wf)
    (hidx : t.idx = s.idx) (hsp : t.sp = s.sp) (hstk : t.stk = s.stk) : t.Inv := by
  have hslot : ∀ j, t.slot j = 0x0000#16 := fun j => by simpa [slot, hstk] using h.idle_slot hs j
  have hcause : t.cause = .none := hc.trans (h.cause_eq_none (by simp [hs]))
  refine ⟨?_, ?_, ?_, hm, ?_, ?_, ?_, ?_, ?_, ?_, ?_, fun _ => hslot⟩ <;>
    simp [hr, hs, hcause, hidx, hsp, hslot, h.idle_idx hs, h.idle_sp hs]

end State.Inv

/-- Settles O56: the three outcomes of a step from RUNNING, each with its place of `pc`. -/
theorem stepKeepsTheInvariant : Obligations.StepKeepsTheInvariant := by
  intro s t h hstep
  rcases step_cases hstep with ⟨-, rfl⟩ | ⟨hr, hpc, rfl⟩ | ⟨hr, hpc, w, -, hw⟩
  · exact h
  · exact h.raise (by simp) (by simp) (fun _ => hpc) (by simp) (by simp)
  · have hadv : 2 ≤ s.advance.pc.toNat ∧ s.advance.pc.toNat ≤ 4096 := by
      rw [State.advance_pc, toNat_advance hpc]; omega
    rcases hw with ⟨i, -, he⟩ | ⟨-, rfl⟩
    · exact (h.advance hr).exec hr hadv he
    · exact (h.advance hr).raise (by simp) (fun _ => hadv) (by simp) (by simp) (by simp)

/-- Settles O57: reset gives the reset state's values, a load or `start` acts in IDLE only. -/
theorem hostActionsKeepTheInvariant : Obligations.HostActionsKeepTheInvariant := by
  intro m s t h hm
  rcases hostMove_cases hm with ⟨-, rfl⟩ | ⟨hi, hload⟩ | ⟨-, rfl⟩
  · exact .reset_withDrawn s.drawn
  · rcases hload with ⟨a, v, ha, rfl⟩ | ⟨r, v, rfl⟩ | ⟨v, rfl⟩ | rfl
    · exact h.update_idle hi rfl rfl (Memory.write_wf h.mem_wf ha v) rfl rfl rfl
    · exact h.update_idle hi rfl rfl h.mem_wf rfl rfl rfl
    · exact h.update_idle hi rfl rfl h.mem_wf rfl rfl rfl
    · exact h.setRunning hi
  · exact h

/-- Settles O58, by induction on the way the state is reached. -/
theorem reachableStatesMeetTheInvariant : Obligations.ReachableStatesMeetTheInvariant := by
  intro s hs
  induction hs with
  | reset => exact .reset_withDrawn 0
  | step s t _ hstep ih => exact stepKeepsTheInvariant s t ih hstep
  | host m s t _ hm ih => exact hostActionsKeepTheInvariant m s t ih hm

end Sys2Proof.Machine
/-! SUPPORT and proofs. Where every step leaves `pc` (10_state.md R16, R17). -/

namespace Sys2Proof

/-- Class 8 with a `D` that selects no operation (30_encoding.md R67). -/
theorem decodeClass8_unknown (w : Word) {f : Fields} (h : f.d.toNat ∈ [0x8, 0x9, 0xA, 0xB, 0xC, 0xD, 0xF]) :
    decodeClass8 w f = .error (.unknownOpcode w) := by
  simp only [decodeClass8]
  split
  case h_10 => rfl
  all_goals simp [*] at h

/-- The decoder rejects every word of R67's list. -/
theorem decode_of_unknownWord {w : Word} (h : Machine.UnknownWord w.toNat) : decode w = .error (.unknownOpcode w) := by
  have class_eq {k : Nibble} (hk : w.toNat / 4096 = k.toNat) : (fields w).c = k :=
    BitVec.eq_of_toNat_eq (by simp only [fields, toNat_field]; omega)
  have d_eq : (fields w).d.toNat = w.toNat % 16 := by simp [fields]
  rcases h with ⟨hc, h0, hE⟩ | ⟨hc, hd⟩ | ⟨hc, hd⟩
  · rw [decode_class0 (class_eq hc), decodeClass0, if_neg, if_neg]
    · rintro rfl; exact hE rfl
    · rintro rfl; exact h0 rfl
  · rw [decode_class5 (class_eq hc), decodeClass5, if_neg]
    intro h; exact hd (by rw [← d_eq, h]; rfl)
  · rw [decode_class8 (class_eq hc)]
    exact decodeClass8_unknown w (d_eq ▸ hd)

namespace Machine

variable {s t : State} {w : Word}

theorem step_of_fetchesWord {i : Instr} (h : FetchesWord s w) (hw : decode w = .ok i) : step s = exec i s.advance := by
  rw [step_of_fetch h.1 (fetch_of_fetchesWord h)]
  simp only [State.execWord, hw]

theorem step_of_fetchesWord_error {e : DecodeError} (h : FetchesWord s w) (hw : decode w = .error e) :
    step s = .next (s.advance.raise .unknownOpcode) := by
  rw [step_of_fetch h.1 (fetch_of_fetchesWord h)]
  simp only [State.execWord, hw, execUnknown]

/-- The advance and a taken skip do not wrap after a successful fetch (10_state.md R17). -/
theorem toNat_advance_skip {p : Word} (h : p.toNat ≤ 4094) : (p + 4#16).toNat = p.toNat + 4 := by
  rw [BitVec.toNat_add, show (4#16 : Word).toNat = 4 from rfl]
  omega

/-- `pc` after a skip that was fetched at `pc` (42_skip.md R104). -/
theorem toNat_skipIf_advance_pc (h : s.pc.toNat ≤ 4094) (b : Bool) :
    (s.advance.skipIf b).pc.toNat = if b then s.pc.toNat + 4 else s.pc.toNat + 2 := by
  cases b
  · exact toNat_advance h
  · simp only [State.skipIf_true, State.skipNext_pc, State.advance_pc, BitVec.add_assoc]
    exact toNat_advance_skip h

/-- The execute part leaves `pc` at the instruction's line of the table of R16. -/
theorem exec_advance_pc (h : s.pc.toNat ≤ 4094) (i : Instr) :
    ∃ t, exec i s.advance = .next t ∧ t.pc.toNat = pcAfter s i := by
  cases i
  case jump nnn => exact ⟨_, rfl, toNat_addrOperand nnn⟩
  case jumpOffset nnn => exact ⟨_, rfl, toNat_offsetTarget s.advance nnn⟩
  case call nnn =>
    by_cases hsp : s.sp.val = 16
    · exact ⟨_, exec_call_full (s := s.advance) hsp nnn, by simp [pcAfter, hsp, toNat_advance h]⟩
    · exact ⟨_, exec_call_free (s := s.advance) hsp nnn, by simp [pcAfter, hsp, toNat_addrOperand]⟩
  case ret =>
    by_cases hsp : s.sp.val = 0
    · exact ⟨_, exec_ret_empty (s := s.advance) hsp, by simp [pcAfter, hsp, toNat_advance h]⟩
    · exact ⟨_, exec_ret_saved (s := s.advance) hsp, by simp [pcAfter, hsp]⟩
  case skipEq | skipNeq | skipEqReg | skipNeqReg =>
    exact ⟨_, rfl, (toNat_skipIf_advance_pc h _).trans (by simp [pcAfter])⟩
  all_goals exact ⟨_, rfl, toNat_advance h⟩

/-- No line of the table of R16 is above 0x10FE when the slots hold addresses that CALLs pushed. -/
theorem pcAfter_le (h : s.pc.toNat ≤ 4094) (hslot : ∀ j, (s.slot j).toNat ≤ 4096) (i : Instr) :
    pcAfter s i ≤ 0x10FE := by
  cases i
  case jump nnn => exact (Nat.le_of_lt nnn.isLt).trans (by decide)
  case call nnn =>
    have := nnn.isLt
    simp only [pcAfter]
    split <;> omega
  case ret =>
    simp only [pcAfter]
    split
    · omega
    · have hsp := s.sp.isLt
      have := hslot (BitVec.ofNat 4 (s.sp.val - 1))
      rw [State.slot_ofNat s (by omega)] at this
      omega
  case jumpOffset nnn =>
    have := nnn.isLt
    have := (s.reg 0x0#4).isLt
    simp only [pcAfter]
    omega
  case skipEq | skipNeq | skipEqReg | skipNeqReg =>
    simp only [pcAfter]
    split <;> omega
  all_goals simp only [pcAfter]; omega

/-- Settles O12: the table of R16 for a decoded word, the advance alone for an unknown one, and nothing when the fetch
is out of bounds. -/
theorem pcAfterEveryStep : Obligations.PcAfterEveryStep := by
  refine ⟨fun s w i hf hw => ?_, fun s w hf hw => ?_, fun s hr hpc => ?_⟩
  · obtain ⟨t, ht, hpc⟩ := exec_advance_pc hf.2.1 i
    refine ⟨t, (step_of_fetchesWord hf hw).trans ht, hpc, ?_⟩
    rintro rfl
    cases ht; rfl
  · exact ⟨_, step_of_fetchesWord_error hf (decode_of_unknownWord hw), toNat_advance hf.2.1⟩
  · exact ⟨_, step_of_fetch_error hr (State.fetch_of_ge hpc), rfl, rfl⟩

/-- Settles O59: the table of R16 bounds `pc` after an instruction, and at most 4098 bounds the sums. -/
theorem pcNeverWraps : Obligations.PcNeverWraps := by
  intro s t h hr hstep
  refine ⟨fun hpc => ?_, fun hpc => ⟨?_, toNat_advance hpc, toNat_advance_skip hpc⟩⟩
  · rw [step_of_fetch_error hr (State.fetch_of_ge hpc)] at hstep
    cases hstep
    exact ⟨rfl, rfl⟩
  · rcases step_cases hstep with ⟨hn, -⟩ | ⟨-, hge, -⟩ | ⟨-, -, w, -, hw⟩
    · exact absurd hr hn
    · omega
    · rcases hw with ⟨i, -, he⟩ | ⟨-, rfl⟩
      · obtain ⟨u, hu, hpcu⟩ := exec_advance_pc hpc i
        cases he.symm.trans hu
        exact hpcu.trans_le (pcAfter_le hpc h.slot_low i)
      · rw [State.raise_pc, State.advance_pc, toNat_advance hpc]
        omega

end Machine

end Sys2Proof
/-! Proofs. What an instruction reads and writes: random bytes (10_state.md R29), general registers (R12), the flag
register (R21). -/

namespace Sys2Proof.Machine

variable {i : Instr} {s t : State}

/-- A skip is a write of `pc`, taken or not (42_skip.md R104). -/
theorem State.skipIf_eq_setPc (s : State) (b : Bool) : s.skipIf b = s.setPc (if b then s.pc + 2#16 else s.pc) := by
  cases b <;> rfl

/-! ### Random bytes -/

/-- Settles O39, by the instruction: only RANDOM_AND's arm mentions the draw count; CALL and RETURN branch on `sp`. -/
theorem onlyRandomAndTakesARandomByte : Obligations.OnlyRandomAndTakesARandomByte := by
  refine ⟨fun x kk s t h => ?_, fun i s n hi => ?_⟩
  · cases h; rfl
  · cases i
    case randomAnd x kk => exact absurd rfl (hi x kk)
    case call nnn =>
      by_cases hsp : s.sp.val = 16
      · rw [exec_call_full hsp, exec_call_full (s := s.withDrawn n) hsp]; rfl
      · rw [exec_call_free hsp, exec_call_free (s := s.withDrawn n) hsp]; rfl
    case ret =>
      by_cases hsp : s.sp.val = 0
      · rw [exec_ret_empty hsp, exec_ret_empty (s := s.withDrawn n) hsp]; rfl
      · rw [exec_ret_saved hsp, exec_ret_saved (s := s.withDrawn n) hsp]; rfl
    case skipEq | skipNeq | skipEqReg | skipNeqReg =>
      simp only [exec_skipEq, exec_skipNeq, exec_skipEqReg, exec_skipNeqReg, State.skipIf_eq_setPc]; rfl
    all_goals rfl

/-! ### The general registers -/

/-- The register file `x'` agrees with that of `s` on what `i` reads. -/
def AgreesOnReads (i : Instr) (s : State) (x' : Vector Byte 16) : Prop :=
  ∀ r ∈ readRegs i, (s.withRegs x').reg r = s.reg r

/-- The statement of R12 for one instruction in one state. -/
def RegistersByTheTable (i : Instr) (s : State) : Prop :=
  ∃ t, exec i s = .next t ∧ (∀ r, r ∉ writtenRegs i → t.reg r = s.reg r) ∧
    ∀ x', AgreesOnReads i s x' →
      ∃ t', exec i (s.withRegs x') = .next t' ∧ t' = t.withRegs t'.x ∧ ∀ r ∈ writtenRegs i, t'.reg r = t.reg r

namespace RegistersByTheTable

/-- An instruction that keeps the register file, whichever it is, and does the same to the rest of the state. -/
theorem of_keeps (hw : writtenRegs i = []) (ht : exec i s = .next t) (hx : t.x = s.x)
    (he : ∀ x', AgreesOnReads i s x' → exec i (s.withRegs x') = .next (t.withRegs x')) : RegistersByTheTable i s :=
  ⟨t, ht, fun r _ => by simp only [State.reg, hx], fun x' h => ⟨_, he x' h, rfl, by simp [hw]⟩⟩

/-- An instruction that gives each register of its list a value that depends on the registers it reads only. -/
theorem of_writes {w : State → State} (val : State → RegIdx → Byte) (he : ∀ u, exec i u = .next (w u))
    (hframe : ∀ x', w (s.withRegs x') = (w s).withRegs (w (s.withRegs x')).x)
    (hreg : ∀ u r, (w u).reg r = if r ∈ writtenRegs i then val u r else u.reg r)
    (hval : ∀ x', AgreesOnReads i s x' → val (s.withRegs x') = val s) : RegistersByTheTable i s :=
  ⟨w s, he s, fun r hr => by rw [hreg, if_neg hr], fun x' h =>
    ⟨_, he _, hframe x', fun r hr => by rw [hreg, hreg, if_pos hr, if_pos hr, hval x' h]⟩⟩

/-- One register written. -/
theorem of_setReg {x : RegIdx} {v : State → Byte} (he : ∀ u, exec i u = .next (u.setReg x (v u)))
    (hw : writtenRegs i = [x]) (hv : ∀ x', AgreesOnReads i s x' → v (s.withRegs x') = v s) : RegistersByTheTable i s :=
  of_writes (fun u _ => v u) he (fun _ => rfl) (fun u r => by simp [hw, eq_comm]) fun x' h => by simp only [hv x' h]

/-- One register written with a result of two operands, the first of them its old value. -/
theorem of_operands {x y : RegIdx} {op : Byte → Byte → Byte}
    (he : ∀ u, exec i u = .next (u.setReg x (op (u.reg x) (u.reg y)))) (hw : writtenRegs i = [x])
    (hx : x ∈ readRegs i) (hy : y ∈ readRegs i) : RegistersByTheTable i s :=
  of_setReg he hw fun _ h => congrArg₂ op (h x hx) (h y hy)

/-- A write of `pc` with a value that depends on the registers it reads only. -/
theorem of_setPc {v : State → Word} (he : ∀ u, exec i u = .next (u.setPc (v u))) (hw : writtenRegs i = [])
    (hv : ∀ x', AgreesOnReads i s x' → v (s.withRegs x') = v s) : RegistersByTheTable i s :=
  of_keeps hw (he s) rfl fun x' h => by rw [he, hv x' h]; rfl

/-- A skip whose condition depends on the registers it reads only. -/
theorem of_skipIf {b : State → Bool} (he : ∀ u, exec i u = .next (u.skipIf (b u))) (hw : writtenRegs i = [])
    (hb : ∀ x', AgreesOnReads i s x' → b (s.withRegs x') = b s) : RegistersByTheTable i s :=
  of_setPc (fun u => (he u).trans (by rw [State.skipIf_eq_setPc])) hw fun x' h => by rw [hb x' h]; rfl

/-- The flag register and one other written, the flag second (44_alu.md R130). -/
theorem of_resultThenFlag {x y : RegIdx} {f g : Byte → Byte → Byte}
    (he : ∀ u, exec i u = .next (u.resultThenFlag x y f g)) (hw : writtenRegs i = [x, 0xF#4])
    (hx : x ∈ readRegs i) (hy : y ∈ readRegs i) : RegistersByTheTable i s :=
  of_writes (fun u r => if 0xF#4 = r then g (u.reg x) (u.reg y) else f (u.reg x) (u.reg y)) he (fun _ => rfl)
    (fun u r => by rw [hw, State.resultThenFlag_reg]; grind) fun x' h => by simp only [h x hx, h y hy]

/-- The flag register and one other written, the result second (R130). -/
theorem of_flagThenResult {x y : RegIdx} {f g : Byte → Byte → Byte}
    (he : ∀ u, exec i u = .next (u.flagThenResult .latched x y f g)) (hw : writtenRegs i = [x, 0xF#4])
    (hx : x ∈ readRegs i) (hy : y ∈ readRegs i) : RegistersByTheTable i s :=
  of_writes (fun u r => if x = r then g (u.reg x) (u.reg y) else f (u.reg x) (u.reg y)) he (fun _ => rfl)
    (fun u r => by rw [hw, State.flagThenResult_latched_reg]; grind) fun x' h => by simp only [h x hx, h y hy]

end RegistersByTheTable

/-- Settles O40, by the instruction: those that keep the register file, those that write `pc`, and those that write
registers. -/
theorem registersReadAndWrittenByTheTable : Obligations.RegistersReadAndWrittenByTheTable := by
  intro i s
  change RegistersByTheTable i s
  cases i
  case halt | jump | setIndex | stubD | stubE | stubF => exact .of_keeps rfl rfl rfl fun _ _ => rfl
  case call nnn =>
    by_cases h : s.sp.val = 16
    · exact .of_keeps rfl (exec_call_full h nnn) rfl fun x' _ => exec_call_full (s := s.withRegs x') h nnn
    · exact .of_keeps rfl (exec_call_free h nnn) rfl fun x' _ => exec_call_free (s := s.withRegs x') h nnn
  case ret =>
    by_cases h : s.sp.val = 0
    · exact .of_keeps rfl (exec_ret_empty h) rfl fun x' _ => exec_ret_empty (s := s.withRegs x') h
    · exact .of_keeps rfl (exec_ret_saved h) rfl fun x' _ => exec_ret_saved (s := s.withRegs x') h
  case jumpOffset nnn =>
    exact .of_setPc (v := (offsetTarget · nnn)) (fun _ => rfl) rfl fun _ h =>
      congrArg (fun a : Byte => a.zeroExtend 16 + addrOperand nnn) (h 0x0#4 (.head _))
  case skipEq x kk =>
    exact .of_skipIf (b := fun u => u.reg x == kk) (fun _ => rfl) rfl fun _ h => congrArg (· == kk) (h x (.head _))
  case skipNeq x kk =>
    exact .of_skipIf (b := fun u => u.reg x != kk) (fun _ => rfl) rfl fun _ h => congrArg (· != kk) (h x (.head _))
  case skipEqReg x y =>
    exact .of_skipIf (b := fun u => u.reg x == u.reg y) (fun _ => rfl) rfl fun _ h =>
      congrArg₂ (· == ·) (h x (.head _)) (h y (.tail _ (.head _)))
  case skipNeqReg x y d =>
    exact .of_skipIf (b := fun u => u.reg x != u.reg y) (fun _ => rfl) rfl fun _ h =>
      congrArg₂ (· != ·) (h x (.head _)) (h y (.tail _ (.head _)))
  case loadImm x kk => exact .of_setReg (v := fun _ => kk) (fun _ => rfl) rfl fun _ _ => rfl
  case mov x y => exact .of_setReg (v := fun u => u.reg y) (fun _ => rfl) rfl fun _ h => h y (.head _)
  case addImm x kk =>
    exact .of_setReg (v := fun u => u.reg x + kk) (fun _ => rfl) rfl fun _ h => congrArg (· + kk) (h x (.head _))
  case or => exact .of_operands (op := (· ||| ·)) (fun _ => rfl) rfl (.head _) (.tail _ (.head _))
  case and => exact .of_operands (op := (· &&& ·)) (fun _ => rfl) rfl (.head _) (.tail _ (.head _))
  case xor => exact .of_operands (op := (· ^^^ ·)) (fun _ => rfl) rfl (.head _) (.tail _ (.head _))
  case addReg => exact .of_resultThenFlag (fun _ => rfl) rfl (.head _) (.tail _ (.head _))
  case subReg | subnReg => exact .of_flagThenResult (fun _ => rfl) rfl (.head _) (.tail _ (.head _))
  case shr | shl => exact .of_flagThenResult (fun _ => rfl) rfl (.head _) (.head _)
  case randomAnd x kk =>
    exact .of_writes (fun u _ => u.rnd &&& kk) (fun _ => rfl) (fun _ => rfl) (fun u r => by simp [writtenRegs, eq_comm])
      fun _ _ => rfl

/-! ### The flag register -/

/-- Flag first: register 15 keeps the flag unless it is the destination (R130). -/
theorem State.toNat_flagThenResult_flag {x : RegIdx} (hx : some x ≠ some 0xF#4) (y : RegIdx)
    (f g : Byte → Byte → Byte) :
    ((s.flagThenResult .latched x y f g).reg 0xF#4).toNat = (f (s.reg x) (s.reg y)).toNat := by
  rw [flagThenResult_latched_reg, if_neg (fun h => hx (congrArg some h)), if_pos rfl]

/-- Settles O41: the five flags as numbers; the other instructions write register 15 only as a destination (O40). -/
theorem flagRegisterByTheTable : Obligations.FlagRegisterByTheTable := by
  intro i s
  obtain ⟨t, ht, hframe, -⟩ := registersReadAndWrittenByTheTable i s
  refine ⟨t, ht, ?_⟩
  cases i
  case addReg x y =>
    cases ht
    refine ⟨by split <;> decide, fun _ => ?_⟩
    rw [State.resultThenFlag_reg, if_pos rfl, toNat_carryFlag]
  case subReg x y =>
    cases ht
    exact ⟨by split <;> decide, fun hx => (State.toNat_flagThenResult_flag hx y _ _).trans (toNat_greaterFlag _ _)⟩
  case subnReg x y =>
    cases ht
    exact ⟨by split <;> decide, fun hx => (State.toNat_flagThenResult_flag hx y _ _).trans (toNat_greaterFlag _ _)⟩
  case shr x y =>
    cases ht
    exact ⟨Nat.le_of_lt_succ (Nat.mod_lt _ (by decide)), fun hx =>
      (State.toNat_flagThenResult_flag hx x _ _).trans (toNat_lowBitFlag _)⟩
  case shl x y =>
    cases ht
    exact ⟨Nat.le_of_lt_succ (Nat.div_lt_of_lt_mul (s.reg x).isLt), fun hx =>
      (State.toNat_flagThenResult_flag hx x _ _).trans (toNat_highBitFlag _)⟩
  all_goals exact hframe _

end Sys2Proof.Machine
/-! Proofs. The call stack (10_state.md R18 to R20) and the canonical form of memory (R25). -/

namespace Sys2Proof.Machine

variable {s t : State}

/-- No instruction but CALL and RETURN touches the call stack. -/
theorem exec_keeps_stack {i : Instr} (hcall : ∀ nnn, i ≠ .call nnn) (hret : i ≠ .ret) (h : exec i s = .next t) :
    t.stk = s.stk ∧ t.sp = s.sp := by
  cases i
  case call nnn => exact absurd rfl (hcall nnn)
  case ret => exact absurd rfl hret
  case skipEq | skipNeq | skipEqReg | skipNeqReg =>
    simp only [exec_skipEq, exec_skipNeq, exec_skipEqReg, exec_skipNeqReg, State.skipIf_eq_setPc] at h
    cases h; exact ⟨rfl, rfl⟩
  all_goals cases h; exact ⟨rfl, rfl⟩

/-- Settles O44: a free CALL pushes `pc`, a RETURN pops the front, and the two faults change neither slot nor `sp`. -/
theorem callStackIsABoundedList : Obligations.CallStackIsABoundedList := by
  refine ⟨fun s => ⟨s.length_saved, by rw [s.length_saved]; exact Nat.le_of_lt_succ s.sp.isLt⟩, fun nnn s => ?_,
    fun s => ?_, fun i s t hcall hret h => ?_⟩
  · rw [s.length_saved]
    by_cases h : s.sp.val = 16
    · exact ⟨_, exec_call_full h nnn, by rw [if_pos h]; exact ⟨rfl, rfl⟩⟩
    · exact ⟨_, exec_call_free h nnn, by rw [if_neg h]; exact ⟨State.saved_push h s.pc rfl rfl, rfl⟩⟩
  · by_cases h : s.sp.val = 0
    · exact ⟨_, exec_ret_empty h, by rw [State.saved_empty h]; exact ⟨State.saved_empty h, rfl, rfl⟩⟩
    · refine ⟨_, exec_ret_saved h, ?_⟩
      rw [State.saved_of_ne_zero (t := { s with sp := ⟨s.sp.val - 1, by omega⟩ }) h rfl rfl]
      exact ⟨rfl, rfl, rfl⟩
  · obtain ⟨hstk, hsp⟩ := exec_keeps_stack hcall hret h
    exact State.saved_congr hstk hsp

/-- CALLs that fit raise `sp` by their number and keep the run going. -/
theorem execCalls_of_fits (ns : List Addr12) (h : s.sp.val + ns.length ≤ 16) :
    ∃ t, execCalls ns s = .next t ∧ t.sp.val = s.sp.val + ns.length ∧ t.run = s.run ∧ t.cause = s.cause := by
  induction ns generalizing s with
  | nil => exact ⟨s, rfl, rfl, rfl, rfl⟩
  | cons n ns ih =>
    rw [List.length_cons] at h ⊢
    have hfree := exec_call_free (s := s) (by omega) n
    obtain ⟨t, ht, hsp, hrun, hcause⟩ := ih (s := { s with
      stk := s.stk.set s.sp.val s.pc (by omega), sp := ⟨s.sp.val + 1, by omega⟩, pc := addrOperand n }) (by simp; omega)
    refine ⟨t, ?_, ?_, hrun, hcause⟩
    · simp only [execCalls, hfree, ht]
    · simp only at hsp; omega

/-- Settles O45, by induction on the list of CALLs. -/
theorem sixteenCallsFitASeventeenthOverflows : Obligations.SixteenCallsFitASeventeenthOverflows := by
  refine ⟨fun ns s h => execCalls_of_fits ns h, fun ns n s h0 hlen => ?_, fun s h => ?_⟩
  · obtain ⟨t, ht, hsp, -, -⟩ := execCalls_of_fits (s := s) ns (by omega)
    have hfull : t.sp.val = 16 := by omega
    exact ⟨t, _, ht, exec_call_full hfull n, rfl, rfl, hfull, rfl⟩
  · exact ⟨_, exec_ret_empty h, rfl, rfl⟩

namespace SameExcept

/-- The frame of a stack slot's write. -/
theorem setSlot (s : State) {j : Nibble} {k : Nat} (hk : k < 16) (hj : k = j.toNat) (v : Word) :
    SameExcept [.slot j] s { s with stk := s.stk.set k v hk } := by
  refine ⟨fun p hp => ?_, fun _ => rfl⟩
  cases p
  case slot i =>
    have hi : k ≠ i.toNat := fun e => hp (by simp [BitVec.eq_of_toNat_eq (e.symm.trans hj)])
    exact congrArg BitVec.toNat ((State.slot_set_stk k hk v i).trans (if_neg hi))
  all_goals rfl

/-- The frame of a write of `sp`. -/
theorem setSp (s : State) (sp : Fin 17) : SameExcept [.sp] s { s with sp := sp } := by
  refine ⟨fun p hp => ?_, fun _ => rfl⟩
  cases p
  case sp => simp at hp
  all_goals rfl

/-- Two updates in a row change what either changes. -/
theorem trans {k l : List Part} {u : State} (h : SameExcept k s t) (h' : SameExcept l t u) : SameExcept (k ++ l) s u :=
  ⟨fun p hp => (h'.1 p fun hl => hp (List.mem_append_right k hl)).trans
    (h.1 p fun hk => hp (List.mem_append_left l hk)),
    fun a => (h'.2 a).trans (h.2 a)⟩

end SameExcept

/-- A pop after a push gives the value back, and the slot keeps it (92_eei_decisions.md D16). -/
theorem State.pop_push (h : s.sp.val < 16) (v : Word) :
    State.pop { s with stk := s.stk.set s.sp.val v h, sp := ⟨s.sp.val + 1, by omega⟩ } =
      .ok (v, { s with stk := s.stk.set s.sp.val v h }) := by
  simp [pop]

/-- Settles O42: a push and a pop at each end of the stack. -/
theorem pushAndPop : Obligations.PushAndPop := by
  refine ⟨fun s v h => State.push_full h v, fun s v j h => ?_, fun s h => State.pop_empty h, fun s j h => ?_⟩
  · have hlt : s.sp.val < 16 := h ▸ j.isLt
    have hslot := SameExcept.setSlot s hlt h v
    exact ⟨_, State.push_free (Nat.ne_of_lt hlt) v, (State.slot_set_stk _ hlt v j).trans (if_pos h), rfl,
      hslot.trans (SameExcept.setSp _ _), _, State.pop_push hlt v, rfl, hslot⟩
  · refine ⟨{ s with sp := ⟨s.sp.val - 1, by omega⟩ }, ?_, by simp [h], SameExcept.setSp s _⟩
    simp [State.pop_saved (s := s) (by omega), State.slot, h]

/-! ### Memory -/

/-- The first listed byte of a canonical memory is what its address reads as, and no unlisted byte. -/
theorem Memory.read_head_ne {b : Nat} {u : Byte} {m : Memory} (h : Memory.wf ((b, u) :: m)) :
    Memory.read ((b, u) :: m) b ≠ unlistedByte := by
  simp only [Memory.read, if_pos]
  exact (h.2 (b, u) List.mem_cons_self).2

/-- An address below the first listed one reads as an unlisted address. -/
theorem Memory.read_of_lt_head {a b : Nat} {u : Byte} {m : Memory} (h : Memory.wf ((b, u) :: m)) (hab : a < b) :
    Memory.read ((b, u) :: m) a = unlistedByte :=
  read_of_below (List.forall_mem_cons.2 ⟨hab, fun c hc => hab.trans (wf_head_lt h c hc)⟩)

/-- Memories in canonical form that read alike list the same bytes, entry by entry. -/
theorem Memory.eq_of_read_eq {m n : Memory} (hm : m.wf) (hn : n.wf) (h : ∀ a, a < 4096 → m.read a = n.read a) :
    m = n := by
  induction m generalizing n with
  | nil =>
    cases n with
    | nil => rfl
    | cons d n => exact absurd (h d.1 (hn.2 d List.mem_cons_self).1).symm (read_head_ne hn)
  | cons c m ih =>
    obtain ⟨a, u⟩ := c
    have ha := (hm.2 (a, u) List.mem_cons_self).1
    cases n with
    | nil => exact absurd (h a ha) (read_head_ne hm)
    | cons d n =>
      obtain ⟨b, v⟩ := d
      have hb := (hn.2 (b, v) List.mem_cons_self).1
      rcases Nat.lt_trichotomy a b with hab | rfl | hab
      · exact absurd ((h a ha).trans (read_of_lt_head hn hab)) (read_head_ne hm)
      · have huv : u = v := by simpa only [read, if_pos] using h a ha
        have htail : ∀ k, k < 4096 → read m k = read n k := fun k hk => by
          by_cases e : a = k
          · subst e
            rw [read_of_below (wf_head_lt hm), read_of_below (wf_head_lt hn)]
          · simpa only [read, if_neg e] using h k hk
        rw [huv, ih (wf_tail hm) (wf_tail hn) htail]
      · exact absurd ((h b hb).symm.trans (read_of_lt_head hm hab)) (read_head_ne hn)

/-- Settles O47, by induction on both lists: their first entries have the same address and byte. -/
theorem canonicalMemoriesThatReadAlikeAreEqual : Obligations.CanonicalMemoriesThatReadAlikeAreEqual :=
  fun _ _ hm hn h => Memory.eq_of_read_eq hm hn h

end Sys2Proof.Machine
/-! Proofs. Reset and the host's inputs and outputs (10_state.md R30 to R33). -/

namespace Sys2Proof.Machine

variable {s t : State}

theorem RunState.code_inj {a b : RunState} (h : a.code = b.code) : a = b := by
  revert h; cases a <;> cases b <;> decide

theorem Cause.code_inj {a b : Cause} (h : a.code = b.code) : a = b := by
  revert h; cases a <;> cases b <;> decide

/-- Settles O49: reset overwrites every piece but the supplier's count; a load or `start` acts in IDLE only. -/
theorem resetFromAnyRunState : Obligations.ResetFromAnyRunState := by
  refine ⟨fun s => ⟨s.resetBlock, rfl, fun q hq => ?_, fun _ => rfl⟩, fun m s t hs h hm => ?_, fun s t hs h => ?_⟩
  · cases q
    case drawn => exact absurd rfl hq
    all_goals rfl
  · rcases hostMove_cases h with ⟨hreset, -⟩ | ⟨hi, -⟩ | ⟨-, rfl⟩
    · exact absurd hreset hm
    · simp [hi] at hs
    · rfl
  · have hr : s.run ≠ .running := fun e => by simp [e] at hs
    cases (step_of_not_running hr).symm.trans h
    rfl

/-- Settles O50: `start` acts in IDLE, with the frame of `setRunning`. -/
theorem startActsInIdleOnly : Obligations.StartActsInIdleOnly :=
  ⟨fun s h => ⟨s.setRunning, congrArg Host.Outcome.next (start_of_idle h), rfl, SameExcept.setRunning s⟩,
    fun _ h => congrArg Host.Outcome.next (start_of_not_idle h)⟩

/-- Settles O51: the three loads in IDLE, the missing address, and the refusal elsewhere. -/
theorem hostLoadsWhileIdleOnly : Obligations.HostLoadsWhileIdleOnly := by
  refine ⟨fun s a v hi hwf ha => ?_, fun s a v hi ha => ?_, fun s r v hi => ?_, fun s v hi => ?_,
    fun s a r b v hi => ?_⟩
  · have hlt : a < 4096 := Nat.lt_succ_of_le ha
    refine ⟨s.writeByte a v, (whileIdle_of_idle hi _).trans (hostWriteMem_of_lt hlt v), ?_, fun b hb => ?_, fun q => ?_⟩
    · rw [State.writeByte_memRead hwf, if_pos ⟨rfl, hlt⟩]
    · rw [State.writeByte_memRead hwf, if_neg fun h => hb h.1.symm]
    · cases q <;> rfl
  · exact (whileIdle_of_idle hi _).trans (hostWriteMem_of_le ha v)
  · exact ⟨s.setReg r v, whileIdle_of_idle hi _, by simp, SameExcept.setReg s r v⟩
  · exact ⟨s.setPc v, whileIdle_of_idle hi _, rfl, SameExcept.setPc s v⟩
  · exact ⟨whileIdle_of_not_idle hi _, whileIdle_of_not_idle hi _, whileIdle_of_not_idle hi _⟩

/-- What the debugging read shows, when it shows anything. -/
theorem State.readout_eq_some {v : Readout} (h : s.readout = some v) :
    v = { x := s.x, pc := s.pc, idx := s.idx, sp := BitVec.ofNat 5 s.sp.val, stk := s.stk, mem := s.mem } := by
  simp only [readout] at h
  split at h
  · cases h
  all_goals exact (Option.some.inj h).symm

theorem State.readout_eq_none : s.readout = none ↔ s.run = .running := by
  simp only [readout]
  split <;> simp [*]

theorem State.result_eq : s.result = if s.run = .halted then some s.x else none := by
  simp only [result]
  split <;> simp [*]

/-- Settles O52: the two outputs by the run state, and the codes of `run` and `cause` told apart. -/
theorem resultOfferedOnlyWhenHalted : Obligations.ResultOfferedOnlyWhenHalted := by
  refine ⟨fun s => ⟨fun h => ?_, fun h => ?_, State.readout_eq_none⟩, fun s t h => ?_, fun s v h => ?_⟩
  · rw [State.result_eq, if_pos h]
  · rw [State.result_eq, if_neg h]
  · obtain ⟨hrun, hcause⟩ := Prod.mk.inj h
    exact ⟨RunState.code_inj hrun, Cause.code_inj hcause⟩
  · rw [State.readout_eq_some h]
    have := s.sp.isLt
    exact ⟨rfl, rfl, rfl, rfl, Nat.mod_eq_of_lt (by omega), rfl⟩

end Sys2Proof.Machine
/-! Proofs. Memory and the fetch (20_memory.md R41 to R45). -/

namespace Sys2Proof.Machine

variable {s t : State}

/-! ### The bound of the fetch -/

/-- A fetch gives a word exactly at 0 to 4094 (R43). -/
theorem State.fetch_eq_ok_iff : (∃ w, s.fetch = .ok w) ↔ s.pc.toNat ≤ 4094 := by
  refine ⟨fun ⟨w, hw⟩ => ?_, fun h => ⟨_, fetch_of_le h⟩⟩
  by_contra hpc
  rw [fetch_of_ge (by omega)] at hw
  cases hw

/-! ### Memory is left alone -/

/-- Nothing that an instruction can do touches memory (R45). -/
theorem exec_keeps_mem {i : Instr} (h : exec i s = .next t) : t.mem = s.mem := by
  rcases exec_cases i h with ⟨_, rfl⟩ | ⟨_, rfl⟩ | ⟨_, rfl⟩ | ⟨_, rfl⟩ | ⟨_, _, rfl⟩ | ⟨_, rfl⟩ | rfl | ⟨rfl, _⟩ |
    ⟨rfl, _⟩ | rfl
  all_goals rfl

/-- Nothing that a step can do touches memory. -/
theorem step_keeps_mem (h : step s = .next t) : t.mem = s.mem := by
  rcases step_cases h with ⟨-, rfl⟩ | ⟨-, -, rfl⟩ | ⟨-, -, _, -, ⟨i, -, he⟩ | ⟨-, rfl⟩⟩
  · rfl
  · rfl
  · exact (exec_keeps_mem he).trans s.advance_mem
  · rfl

/-! ### Nothing but the fetch depends on memory -/

/-- An instruction does the same to the rest of the state with any other memory; CALL and RETURN branch on `sp`. -/
theorem exec_withMem (i : Instr) (s : State) (m : Memory) :
    exec i (s.withMem m) = mapNext (·.withMem m) (exec i s) := by
  cases i
  case call nnn =>
    by_cases hsp : s.sp.val = 16
    · rw [exec_call_full hsp, exec_call_full (s := s.withMem m) hsp]; rfl
    · rw [exec_call_free hsp, exec_call_free (s := s.withMem m) hsp]; rfl
  case ret =>
    by_cases hsp : s.sp.val = 0
    · rw [exec_ret_empty hsp, exec_ret_empty (s := s.withMem m) hsp]; rfl
    · rw [exec_ret_saved hsp, exec_ret_saved (s := s.withMem m) hsp]; rfl
  case skipEq | skipNeq | skipEqReg | skipNeqReg =>
    simp only [exec_skipEq, exec_skipNeq, exec_skipEqReg, exec_skipNeqReg, State.skipIf_eq_setPc]; rfl
  all_goals rfl

/-- So does everything after the fetch, for a word of either kind. -/
theorem execWord_withMem (s : State) (w : Word) (m : Memory) :
    (s.withMem m).execWord w = mapNext (·.withMem m) (s.execWord w) := by
  simp only [State.execWord]
  split
  · exact exec_withMem _ s.advance m
  · rfl

/-- A step depends on memory through the fetched word only. -/
theorem step_withMem {m : Memory} (h : (s.withMem m).fetch = s.fetch) :
    step (s.withMem m) = mapNext (·.withMem m) (step s) := by
  by_cases hr : s.run = .running
  · cases hf : s.fetch with
    | ok w => rw [step_of_fetch hr hf, step_of_fetch (s := s.withMem m) hr (h.trans hf), execWord_withMem]
    | error c => rw [step_of_fetch_error hr hf, step_of_fetch_error (s := s.withMem m) hr (h.trans hf)]; rfl
  · rw [step_of_not_running hr, step_of_not_running (s := s.withMem m) hr]; rfl

/-! ### The statements -/

/-- Settles O9: the fetched word is the two bytes, and the rest of the step leaves memory alone. -/
theorem stepReadsOnlyTheTwoFetchedBytes : Obligations.StepReadsOnlyTheTwoFetchedBytes := by
  refine ⟨fun s hpc => ?_, fun s t h => State.memRead_congr (step_keeps_mem h), fun s m hhi hlo => ?_⟩
  · refine ⟨_, _, _, State.memRead_of_lt (by omega), State.memRead_of_lt (by omega), State.fetch_of_le hpc, ?_⟩
    rw [wordOfBytes, toNat_concat]
    omega
  · exact step_withMem (State.fetch_congr rfl hhi hlo)

/-- Settles O46: every instruction answers a next state (O40), and its answer keeps and ignores memory. -/
theorem instructionsNeitherReadNorWriteMemory : Obligations.InstructionsNeitherReadNorWriteMemory := by
  refine ⟨fun i s => ?_, fun s t h => step_keeps_mem h⟩
  obtain ⟨t, ht, -⟩ := registersReadAndWrittenByTheTable i s
  have hmem := exec_keeps_mem ht
  exact ⟨t, ht, hmem, State.memRead_congr hmem, fun m => by rw [exec_withMem, ht]; rfl⟩

/-- Settles O8: the bound of the fetch, and the frame of the fault that it raises. -/
theorem fetchOutOfBoundsRaises : Obligations.FetchOutOfBoundsRaises := by
  refine fun s => ⟨State.fetch_eq_ok_iff, fun hr hpc => ?_⟩
  exact ⟨_, step_of_fetch_error hr (State.fetch_of_ge (by omega)), rfl, rfl, rfl, SameExcept.raise s _⟩

end Sys2Proof.Machine
/-! Proofs. The decoder and the encoder: fields, round trip, unknown words, opcode map, ignored fields (30_encoding.md R60
to R67). -/

namespace Sys2Proof

open Machine (State UnknownWord exec)

variable {w : Word} {i : Instr}

/-! ### Fields and bytes -/

theorem toNat_wordOfBytes (hi lo : Byte) : (wordOfBytes hi lo).toNat = hi.toNat * 256 + lo.toNat := by
  simp only [wordOfBytes, toNat_concat, Nat.reducePow]

/-- The two bytes of a word, put together again, are the word (R60). -/
theorem wordOfBytes_extract (w : Word) : wordOfBytes (w.extractLsb' 8 8) (w.extractLsb' 0 8) = w := by
  apply BitVec.eq_of_toNat_eq
  simp only [toNat_wordOfBytes, toNat_field]
  omega

/-- `NNN` and `KK` are the fields that they overlap (R61). -/
theorem fields_overlap (w : Word) : (fields w).nnn = (fields w).x ++ (fields w).y ++ (fields w).d ∧
    (fields w).kk = (fields w).y ++ (fields w).d := by
  have h := fields_wordOfNibbles (fields w).c (fields w).x (fields w).y (fields w).d
  rw [wordOfNibbles_fields] at h
  exact ⟨congrArg Fields.nnn h, congrArg Fields.kk h⟩

/-- Settles O1: each field is a quotient and remainder of the word's number. -/
theorem fieldsAreTheBitsOfTheWord : Obligations.FieldsAreTheBitsOfTheWord := by
  refine ⟨fun w => ?_, fun hi lo => ?_⟩
  · have hw := w.isLt
    obtain ⟨hnnn, hkk⟩ := fields_overlap w
    refine ⟨?_, ?_, ?_, ?_, ?_, ?_, hnnn, hkk⟩ <;> simp only [fields, toNat_field] <;> omega
  · have hh := hi.isLt
    have hl := lo.isLt
    refine ⟨?_, ?_, ?_, ?_, BitVec.eq_of_toNat_eq ?_⟩ <;> simp only [fields, toNat_field, toNat_wordOfBytes] <;> omega

/-! ### Decoding an encoded instruction -/

/-- The decoder undoes the encoder, whatever the operands are: by the format of the row (R62, R65). -/
theorem decode_encode (i : Instr) : decode (encode i) = .ok i := by
  cases i
  case halt | ret => rfl
  case jump | call | setIndex | jumpOffset | stubD | stubE | stubF => simp only [encode, decode, fields_wordA]
  case skipEq | skipNeq | loadImm | addImm | randomAnd => simp only [encode, decode, fields_wordI]
  case skipNeqReg => simp only [encode, decode, fields_wordOfNibbles]
  case skipEqReg => simp only [encode, decode, fields_wordOfNibbles, decodeClass5, if_true]
  case mov | or | and | xor | addReg | subReg | shr | subnReg | shl =>
    simp only [encode, decode, fields_wordOfNibbles, decodeClass8]

/-- Settles O2: the two bytes of an instruction hold its word, and the word decodes to it. -/
theorem encodedInstructionDecodesToItself : Obligations.EncodedInstructionDecodesToItself := by
  refine fun i => ⟨decode_encode i, fun rest => ?_⟩
  simp only [encodeBytes, List.cons_append, List.nil_append, decodeBytes, wordOfBytes_extract, decode_encode, Except.map]

/-! ### Every word is an encoding or unknown -/

section
variable {c l : Nibble}

theorem wordA_of_class (h : (fields w).c = c) : wordA c (fields w).nnn = w := h ▸ wordA_fields w

theorem wordI_of_class (h : (fields w).c = c) : wordI c (fields w).x (fields w).kk = w := h ▸ wordI_fields w

theorem wordOfNibbles_of_class (h : (fields w).c = c) (hl : (fields w).d = l) :
    wordOfNibbles c (fields w).x (fields w).y l = w := h ▸ hl ▸ wordOfNibbles_fields w

end

/-- R67's list, in terms of the fields. -/
theorem unknownWord_iff : UnknownWord w.toNat ↔
    ((fields w).c = 0x0#4 ∧ w ≠ 0x0000#16 ∧ w ≠ 0x00EE#16) ∨ ((fields w).c = 0x5#4 ∧ (fields w).d ≠ 0x0#4) ∨
      ((fields w).c = 0x8#4 ∧ (fields w).d.toNat ∈ [0x8, 0x9, 0xA, 0xB, 0xC, 0xD, 0xF]) := by
  obtain ⟨hc, -, -, hd, -⟩ := fieldsAreTheBitsOfTheWord.1 w
  simp only [UnknownWord, ← hc, ← hd, ne_eq, ← BitVec.toNat_inj, BitVec.toNat_ofNat, Nat.reduceMod, Nat.reducePow]

theorem nibble_cases : ∀ c : Nibble, c = 0x0#4 ∨ c = 0x1#4 ∨ c = 0x2#4 ∨ c = 0x3#4 ∨ c = 0x4#4 ∨ c = 0x5#4 ∨ c = 0x6#4 ∨
    c = 0x7#4 ∨ c = 0x8#4 ∨ c = 0x9#4 ∨ c = 0xA#4 ∨ c = 0xB#4 ∨ c = 0xC#4 ∨ c = 0xD#4 ∨ c = 0xE#4 ∨ c = 0xF#4 := by
  decide

/-- The values of `D` in class 8: the seven unknown ones and those of the nine operations (R65, R67). -/
theorem class8_d_cases : ∀ d : Nibble, d.toNat ∈ [0x8, 0x9, 0xA, 0xB, 0xC, 0xD, 0xF] ∨ d = 0x0#4 ∨ d = 0x1#4 ∨ d = 0x2#4 ∨
    d = 0x3#4 ∨ d = 0x4#4 ∨ d = 0x5#4 ∨ d = 0x6#4 ∨ d = 0x7#4 ∨ d = 0xE#4 := by
  decide

theorem encoded_or_unknown_class0 (hc : (fields w).c = 0x0#4) : (∃ i, encode i = w) ∨ UnknownWord w.toNat := by
  by_cases h0 : w = 0x0000#16
  · exact .inl ⟨.halt, h0.symm⟩
  by_cases hE : w = 0x00EE#16
  · exact .inl ⟨.ret, hE.symm⟩
  · exact .inr (unknownWord_iff.2 (.inl ⟨hc, h0, hE⟩))

theorem encoded_or_unknown_class5 (hc : (fields w).c = 0x5#4) : (∃ i, encode i = w) ∨ UnknownWord w.toNat := by
  by_cases hd : (fields w).d = 0x0#4
  · exact .inl ⟨.skipEqReg _ _, wordOfNibbles_of_class hc hd⟩
  · exact .inr (unknownWord_iff.2 (.inr (.inl ⟨hc, hd⟩)))

theorem encoded_or_unknown_class8 (hc : (fields w).c = 0x8#4) : (∃ i, encode i = w) ∨ UnknownWord w.toNat := by
  rcases class8_d_cases (fields w).d with hu | hd | hd | hd | hd | hd | hd | hd | hd | hd
  · exact .inr (unknownWord_iff.2 (.inr (.inr ⟨hc, hu⟩)))
  · exact .inl ⟨.mov _ _, wordOfNibbles_of_class hc hd⟩
  · exact .inl ⟨.or _ _, wordOfNibbles_of_class hc hd⟩
  · exact .inl ⟨.and _ _, wordOfNibbles_of_class hc hd⟩
  · exact .inl ⟨.xor _ _, wordOfNibbles_of_class hc hd⟩
  · exact .inl ⟨.addReg _ _, wordOfNibbles_of_class hc hd⟩
  · exact .inl ⟨.subReg _ _, wordOfNibbles_of_class hc hd⟩
  · exact .inl ⟨.shr _ _, wordOfNibbles_of_class hc hd⟩
  · exact .inl ⟨.subnReg _ _, wordOfNibbles_of_class hc hd⟩
  · exact .inl ⟨.shl _ _, wordOfNibbles_of_class hc hd⟩

/-- Every word is the encoding of an instruction or one of the unknown words: by its class (R64, R67). -/
theorem encoded_or_unknown (w : Word) : (∃ i, encode i = w) ∨ UnknownWord w.toNat := by
  rcases nibble_cases (fields w).c with h | h | h | h | h | h | h | h | h | h | h | h | h | h | h | h
  · exact encoded_or_unknown_class0 h
  · exact .inl ⟨.jump _, wordA_of_class h⟩
  · exact .inl ⟨.call _, wordA_of_class h⟩
  · exact .inl ⟨.skipEq _ _, wordI_of_class h⟩
  · exact .inl ⟨.skipNeq _ _, wordI_of_class h⟩
  · exact encoded_or_unknown_class5 h
  · exact .inl ⟨.loadImm _ _, wordI_of_class h⟩
  · exact .inl ⟨.addImm _ _, wordI_of_class h⟩
  · exact encoded_or_unknown_class8 h
  · exact .inl ⟨.skipNeqReg _ _ _, wordOfNibbles_of_class h rfl⟩
  · exact .inl ⟨.setIndex _, wordA_of_class h⟩
  · exact .inl ⟨.jumpOffset _, wordA_of_class h⟩
  · exact .inl ⟨.randomAnd _ _, wordI_of_class h⟩
  · exact .inl ⟨.stubD _, wordA_of_class h⟩
  · exact .inl ⟨.stubE _, wordA_of_class h⟩
  · exact .inl ⟨.stubF _, wordA_of_class h⟩

/-- Everything the decoder can answer: an instruction that encodes to the word, or the rejection of an unknown word. -/
theorem decode_cases (w : Word) :
    (∃ i, decode w = .ok i ∧ encode i = w) ∨ (decode w = .error (.unknownOpcode w) ∧ UnknownWord w.toNat) := by
  rcases encoded_or_unknown w with ⟨i, rfl⟩ | hu
  · exact .inl ⟨i, decode_encode i, rfl⟩
  · exact .inr ⟨decode_of_unknownWord hu, hu⟩

theorem encode_of_decode (h : decode w = .ok i) : encode i = w := by
  rcases decode_cases w with ⟨j, hj, he⟩ | ⟨hw, -⟩
  · cases h.symm.trans hj
    exact he
  · cases h.symm.trans hw

/-- Settles O3: the decoder answers only instructions that encode to the word. -/
theorem decodedWordEncodesToItself : Obligations.DecodedWordEncodesToItself := fun _ _ => encode_of_decode

/-- Settles O5: an unknown word is rejected, every other word is an encoding. -/
theorem decoderRejectsExactlyTheUnknownWords : Obligations.DecoderRejectsExactlyTheUnknownWords := by
  refine fun w => ⟨⟨fun h => ?_, decode_of_unknownWord⟩, fun hu => ?_⟩
  · rcases decode_cases w with ⟨i, hi, -⟩ | ⟨-, hw⟩
    · cases h.symm.trans hi
    · exact hw
  · rcases decode_cases w with ⟨i, hi, -⟩ | ⟨-, hw⟩
    · exact ⟨i, hi⟩
    · exact absurd hw hu

/-! ### The opcode map -/

/-- The row that an instruction's word lies in, for all instructions of the family EncodesInRow. -/
theorem row_selects_encode (i : Instr) : i.row.selects (encode i) = true := by
  cases i
  case halt => exact Laws.EncodesInRow.halt
  case ret => exact Laws.EncodesInRow.ret
  case jump => exact Laws.EncodesInRow.jump _
  case call => exact Laws.EncodesInRow.call _
  case skipEq => exact Laws.EncodesInRow.skipEq _ _
  case skipNeq => exact Laws.EncodesInRow.skipNeq _ _
  case skipEqReg => exact Laws.EncodesInRow.skipEqReg _ _
  case loadImm => exact Laws.EncodesInRow.loadImm _ _
  case addImm => exact Laws.EncodesInRow.addImm _ _
  case mov => exact Laws.EncodesInRow.mov _ _
  case or => exact Laws.EncodesInRow.or _ _
  case and => exact Laws.EncodesInRow.and _ _
  case xor => exact Laws.EncodesInRow.xor _ _
  case addReg => exact Laws.EncodesInRow.addReg _ _
  case subReg => exact Laws.EncodesInRow.subReg _ _
  case shr => exact Laws.EncodesInRow.shr _ _
  case subnReg => exact Laws.EncodesInRow.subnReg _ _
  case shl => exact Laws.EncodesInRow.shl _ _
  case skipNeqReg => exact Laws.EncodesInRow.skipNeqReg _ _ _
  case setIndex => exact Laws.EncodesInRow.setIndex _
  case jumpOffset => exact Laws.EncodesInRow.jumpOffset _
  case randomAnd => exact Laws.EncodesInRow.randomAnd _ _
  case stubD => exact Laws.EncodesInRow.stubD _
  case stubE => exact Laws.EncodesInRow.stubE _
  case stubF => exact Laws.EncodesInRow.stubF _

theorem row_mem_opcodeMap (i : Instr) : i.row ∈ opcodeMap := List.getElem_mem _

namespace OpcodeRow

variable {r q : OpcodeRow}

/-- Two rows that select one word agree on the bits that both masks keep. -/
theorem pattern_and_mask_eq (hr : r.selects w = true) (hq : q.selects w = true) :
    r.pattern &&& q.mask = q.pattern &&& r.mask := by
  simp only [selects, beq_iff_eq] at hr hq
  rw [← hr, ← hq, BitVec.and_assoc, BitVec.and_assoc, BitVec.and_comm r.mask]

/-- A row whose mask keeps a 4-bit field selects only words with the row's own value in that field. -/
theorem field_of_selects {start : Nat} (hm : r.mask.extractLsb' start 4 = 0xF#4) (h : r.selects w = true) :
    w.extractLsb' start 4 = r.pattern.extractLsb' start 4 := by
  simp only [selects, beq_iff_eq] at h
  rw [← h, BitVec.extractLsb'_and, hm, show 0xF#4 = BitVec.allOnes 4 from rfl, BitVec.and_allOnes]

end OpcodeRow

theorem opcodeMap_keeps_class : ∀ r ∈ opcodeMap, (fields r.mask).c = 0xF#4 := by decide

theorem opcodeMap_class0 : ∀ r ∈ opcodeMap, (fields r.pattern).c = 0x0#4 →
    r.mask = 0xFFFF#16 ∧ (r.pattern = 0x0000#16 ∨ r.pattern = 0x00EE#16) := by decide

theorem opcodeMap_class5 : ∀ r ∈ opcodeMap, (fields r.pattern).c = 0x5#4 →
    (fields r.mask).d = 0xF#4 ∧ (fields r.pattern).d = 0x0#4 := by decide

theorem opcodeMap_class8 : ∀ r ∈ opcodeMap, (fields r.pattern).c = 0x8#4 →
    (fields r.mask).d = 0xF#4 ∧ (fields r.pattern).d.toNat ∉ [0x8, 0x9, 0xA, 0xB, 0xC, 0xD, 0xF] := by decide

/-- No row selects an unknown word: the rows of the word's class ask for another word, or for another `D`. -/
theorem not_selects_of_unknownWord {r : OpcodeRow} (hr : r ∈ opcodeMap) (hu : UnknownWord w.toNat) :
    ¬r.selects w = true := by
  intro hs
  have hc : (fields w).c = (fields r.pattern).c := OpcodeRow.field_of_selects (opcodeMap_keeps_class r hr) hs
  rcases unknownWord_iff.1 hu with ⟨h, h0, hE⟩ | ⟨h, hd⟩ | ⟨h, hd⟩
  · obtain ⟨hm, hp⟩ := opcodeMap_class0 r hr (hc ▸ h)
    simp only [OpcodeRow.selects, hm, beq_iff_eq] at hs
    rw [← hs, show 0xFFFF#16 = BitVec.allOnes 16 from rfl, BitVec.and_allOnes] at hp
    exact hp.elim h0 hE
  · obtain ⟨hm, hp⟩ := opcodeMap_class5 r hr (hc ▸ h)
    exact hd ((OpcodeRow.field_of_selects hm hs).trans hp)
  · obtain ⟨hm, hp⟩ := opcodeMap_class8 r hr (hc ▸ h)
    have hd' : (fields w).d = (fields r.pattern).d := OpcodeRow.field_of_selects hm hs
    exact hp (hd' ▸ hd)

/-- Any two rows ask for different values of some bit that both masks keep. -/
theorem opcodeMap_conflicts : opcodeMap.Pairwise fun r q => r.pattern &&& q.mask ≠ q.pattern &&& r.mask := by decide

theorem opcodeMap_disjoint : opcodeMap.Pairwise fun r q => ∀ w : Word, ¬(r.selects w = true ∧ q.selects w = true) :=
  opcodeMap_conflicts.imp fun h _ ⟨hr, hq⟩ => h (OpcodeRow.pattern_and_mask_eq hr hq)

/-- A test that no two elements pass keeps only the element that passes it. -/
theorem filter_eq_singleton {α : Type} {p : α → Bool} {a : α} {l : List α}
    (h : l.Pairwise fun b c => ¬(p b = true ∧ p c = true)) (ha : a ∈ l) (hp : p a = true) : l.filter p = [a] := by
  induction l with
  | nil => cases ha
  | cons b l ih =>
    obtain ⟨hb, hl⟩ := List.pairwise_cons.1 h
    rcases List.mem_cons.1 ha with rfl | ha
    · rw [List.filter_cons_of_pos hp, List.filter_eq_nil_iff.2 fun c hc hpc => hb c hc ⟨hp, hpc⟩]
    · rw [List.filter_cons_of_neg fun hpb => hb a ha ⟨hpb, hp⟩, ih hl ha]

/-- Settles O4: the row of a decoded instruction selects its word (EncodesInRow), and the rows are disjoint. -/
theorem everyWordSelectsItsOneRow : Obligations.EveryWordSelectsItsOneRow := by
  refine ⟨fun w => ?_, opcodeMap_disjoint⟩
  rcases decode_cases w with ⟨i, hi, rfl⟩ | ⟨hw, hu⟩
  · rw [hi]
    exact filter_eq_singleton (opcodeMap_disjoint.imp fun h => h _) (row_mem_opcodeMap i) (row_selects_encode i)
  · rw [hw]
    exact List.filter_eq_nil_iff.2 fun r hr => not_selects_of_unknownWord hr hu

/-! ### Ignored fields -/

/-- An instruction does not depend on its ignored field (R66; D4, D5). -/
theorem exec_assembled (i : Instr) (s : State) : exec i s = exec i.assembled s := by
  cases i
  case shr => rw [Instr.assembled, Machine.exec_shr, Machine.exec_shr]
  case shl => rw [Instr.assembled, Machine.exec_shl, Machine.exec_shl]
  case skipNeqReg => rw [Instr.assembled, Machine.exec_skipNeqReg, Machine.exec_skipNeqReg]
  all_goals rfl

/-- In class 5 the field `D` selects (R65 row 7, R66). -/
theorem decode_class5_iff (x y : RegIdx) (d : Nibble) :
    decode (wordOfNibbles 0x5#4 x y d) = .ok (.skipEqReg x y) ↔ d = 0x0#4 := by
  refine ⟨fun h => ?_, fun h => h ▸ decode_encode (.skipEqReg x y)⟩
  obtain ⟨-, -, -, hd⟩ := wordOfNibbles_inj.1 (encode_of_decode h)
  exact hd.symm

/-- Settles O7: SHR, SHL and SKIP_NEQ_REG keep the ignored field as an operand of the encoding (O2). -/
theorem ignoredFieldsSelectAndDoNothing : Obligations.IgnoredFieldsSelectAndDoNothing :=
  ⟨exec_assembled, fun x y => ⟨decode_encode (.shr x y), decode_encode (.shl x y)⟩,
    fun x y d => ⟨decode_encode (.skipNeqReg x y d), decode_class5_iff x y d⟩, fun _ _ _ => ⟨rfl, rfl, rfl⟩⟩

/-- Settles O6, by running the decoder on the written-out words. -/
theorem writtenOutWordsDecode : Obligations.WrittenOutWordsDecode := by
  unfold Obligations.WrittenOutWordsDecode
  decide

end Sys2Proof
/-! Proofs. The step and the run: the decoded instruction, HALT, and the run without a budget (40_executor_step.md R80
to R85). -/

namespace Sys2Proof.Machine

variable {s : State} {w : Word}

/-! ### A jump to its own address -/

/-- A run from a state that the step answers itself stays there, however many steps it takes. -/
theorem run_of_step_eq_self {M : Host.Core} {s : M.State} (h : M.step s = .next s) (k : Nat) : M.run k s = .next s := by
  induction k with
  | zero => rfl
  | succ k ih => rw [Host.Core.run, h]; exact ih

/-- A write of the old `pc` undoes the advance. -/
theorem State.advance_setPc_self (s : State) : s.advance.setPc s.pc = s := rfl

/-- A step that fetches a JUMP to its own address leaves the state as it was (41_control_transfer.md R90). -/
theorem step_of_selfJump {nnn : Addr12} (h : FetchesWord s (wordA 0x1#4 nnn)) (hpc : s.pc.toNat = nnn.toNat) :
    step s = .next s := by
  have htarget : addrOperand nnn = s.pc := BitVec.eq_of_toNat_eq ((toNat_addrOperand nnn).trans hpc.symm)
  rw [step_of_fetchesWord h (decode_encode (.jump nnn)), exec_jump, htarget, State.advance_setPc_self]

/-- Settles O60: the step answers the state itself, so every run does; that it is running is part of the fetch. -/
theorem selfJumpRunsForEver : Obligations.SelfJumpRunsForEver :=
  fun _ _ k h hpc => ⟨run_of_step_eq_self (M := Sys2Proof.core) (step_of_selfJump h hpc) k, h.1⟩

/-! ### The decoded instruction -/

/-- The two bytes at `pc`, put together, are the fetched word (20_memory.md R41, R42). -/
theorem State.fetch_of_bytes {hi lo : Byte} (hpc : s.pc.toNat ≤ 4094) (hhi : s.memRead s.pc.toNat = some hi)
    (hlo : s.memRead (s.pc.toNat + 1) = some lo) : s.fetch = .ok (wordOfBytes hi lo) := by
  rw [memRead_of_lt (by omega), Option.some.injEq] at hhi hlo
  rw [fetch_of_le hpc, hhi, hlo]

/-- A decoded word runs as its instruction after the advance (R80, R81). -/
theorem State.execWord_of_decode {i : Instr} (hw : decode w = .ok i) : s.execWord w = exec i s.advance := by
  simp only [execWord, hw]

/-- Settles O10: the fetch gives the word of the two bytes, and the word runs as its instruction. -/
theorem stepRunsTheDecodedInstruction : Obligations.StepRunsTheDecodedInstruction :=
  fun _ _ _ _ hrun hpc hhi hlo hdec =>
    (step_of_fetch hrun (State.fetch_of_bytes hpc hhi hlo)).trans (State.execWord_of_decode hdec)

/-! ### HALT -/

/-- Exactly the encoding of an instruction decodes to it (30_encoding.md R62, R65). -/
theorem decode_eq_ok_iff {i : Instr} : decode w = .ok i ↔ w = encode i :=
  ⟨fun h => (encode_of_decode h).symm, fun h => h ▸ decode_encode i⟩

/-- Settles O17: HALT's word is 0x0000, and its effect is the one write of `run`. -/
theorem haltEndsTheRun : Obligations.HaltEndsTheRun :=
  ⟨fun _ => decode_eq_ok_iff, fun s _ hpc => ⟨s.halt, exec_halt s, rfl, hpc, SameExcept.halt s⟩⟩

end Sys2Proof.Machine
/-! Proofs. Control transfer: JUMP, CALL, RETURN and JUMP_OFFSET (41_control_transfer.md R90 to R93). -/

namespace Sys2Proof.Machine

variable {s : State} {j : Nibble}

/-! ### JUMP and JUMP_OFFSET -/

/-- The word 0x1FFF runs as a jump to the one address of memory where no fetch succeeds (20_memory.md R43). -/
theorem step_of_jumpToTop (h : FetchesWord s 0x1FFF#16) : step s = .next (s.advance.setPc 0x0FFF#16) :=
  step_of_fetchesWord h (decode_encode (.jump 0xFFF#12))

/-- Settles O18: the target is the widened field, and the step after a jump to 0xFFF finds no word to fetch. -/
theorem jumpSetsPc : Obligations.JumpSetsPc := by
  refine ⟨fun w h => decode_class1 ((and_classMask w 0x1#4).1 h), fun nnn s => ?_,
    fun s nnn h hpc => step_of_selfJump h hpc, fun s t u h ht hu => ?_⟩
  · exact ⟨_, exec_jump s nnn, toNat_addrOperand nnn, SameExcept.setPc s _⟩
  · rw [step_of_jumpToTop h] at ht
    cases ht
    have hrun : (s.advance.setPc 0x0FFF#16).run = .running := h.1
    rw [step_of_fetch_error hrun (State.fetch_of_ge (Nat.le_refl 4095))] at hu
    cases hu
    exact ⟨hrun, rfl, rfl, rfl⟩

/-- Settles O21: the sum of a byte and a 12-bit number fits into `pc`. -/
theorem jumpOffsetSetsPcToTheWholeSum : Obligations.JumpOffsetSetsPcToTheWholeSum := by
  refine ⟨fun w h => decode_classB ((and_classMask w 0xB#4).1 h), fun nnn s => ?_⟩
  have hsum := toNat_offsetTarget s nnn
  have hle : (offsetTarget s nnn).toNat ≤ 0x10FE := by
    have := (s.reg 0x0#4).isLt
    have := nnn.isLt
    omega
  exact ⟨_, exec_jumpOffset s nnn, hsum, hle, SameExcept.setPc s _⟩

/-! ### CALL and RETURN -/

namespace SameExcept

/-- The frame of a push and a jump: the slot at `sp`, `sp` and `pc`. -/
theorem pushAndJump (h : s.sp.val = j.toNat) (v target : Word) (sp : Fin 17) :
    SameExcept [.slot j, .sp, .pc] s
      { s with stk := s.stk.set s.sp.val v (h ▸ j.isLt), sp := sp, pc := target } :=
  (setSlot s (h ▸ j.isLt) h v).trans ((setSp _ sp).trans (setPc _ target))

/-- The frame of a pop into `pc`: `sp` and `pc`, but no slot (92_eei_decisions.md D16). -/
theorem popIntoPc (s : State) (target : Word) (sp : Fin 17) :
    SameExcept [.sp, .pc] s { s with sp := sp, pc := target } :=
  (setSp s sp).trans (setPc _ target)

end SameExcept

/-- The slot below `sp` is the one that a pop reads (10_state.md R19, R20). -/
theorem State.stk_top (h : s.sp.val = j.toNat + 1) :
    s.stk[s.sp.val - 1]'(by have := j.isLt; omega) = s.slot j := by
  simp only [slot, h, Nat.add_sub_cancel]

/-- Settles O19: below 16 a push of `pc` and a jump; at 16 the fault alone. -/
theorem callPushesAndJumps : Obligations.CallPushesAndJumps := by
  refine ⟨fun w h => decode_class2 ((and_classMask w 0x2#4).1 h), fun nnn s p j hpc hsp => ?_,
    fun nnn s p hpc hsp => ?_⟩
  · have hlt : s.sp.val < 16 := hsp ▸ j.isLt
    have hslot := (State.slot_set_stk (s := s) s.sp.val hlt s.pc j).trans (if_pos hsp)
    exact ⟨_, exec_call_free (Nat.ne_of_lt hlt) nnn, hslot.trans hpc, rfl, toNat_addrOperand nnn,
      SameExcept.pushAndJump hsp s.pc _ _⟩
  · exact ⟨_, exec_call_full hsp nnn, rfl, rfl, rfl, hpc, hsp, SameExcept.raise s _⟩

/-- Settles O20: above 0 the top slot goes to `pc` and keeps its contents; at 0 the fault alone. -/
theorem returnPopsIntoPc : Obligations.ReturnPopsIntoPc := by
  refine ⟨fun w => decode_eq_ok_iff, fun s j hsp => ?_, fun s p hpc hsp => ?_⟩
  · have hne : s.sp.val ≠ 0 := by omega
    have hpop : s.sp.val - 1 = j.toNat := by omega
    exact ⟨_, exec_ret_saved hne, State.stk_top hsp, hpop, rfl, SameExcept.popIntoPc s _ _⟩
  · exact ⟨_, exec_ret_empty hsp, rfl, rfl, rfl, hpc, hsp, SameExcept.raise s _⟩

/-- Settles O43: the slot that RETURN pops is the one that CALL wrote. -/
theorem returnUndoesCall : Obligations.ReturnUndoesCall := by
  refine fun nnn s hfree => ⟨_, exec_call_free hfree nnn, fun u hstk hsp => ?_⟩
  have hval : u.sp.val = s.sp.val + 1 := congrArg Fin.val hsp
  have hne : u.sp.val ≠ 0 := by omega
  have hpop : u.stk[u.sp.val - 1]'(by omega) = s.pc := by simp [hstk, hval]
  have hback : u.sp.val - 1 = s.sp.val := by omega
  exact ⟨_, exec_ret_saved hne, hpop, Fin.ext hback, hstk, rfl⟩

end Sys2Proof.Machine
/-! Proofs. The four conditional skips (42_skip.md R100 to R104). -/

namespace Sys2Proof.Machine

variable {s : State} {p : Word}

/-! ### Where a skip leaves `pc` -/

/-- A skip that is entered at `p + 2` (R104). -/
theorem State.skipIf_pc (hpc : s.pc = p + 2#16) (b : Bool) :
    (s.skipIf b).pc = if b then p + 4#16 else p + 2#16 := by
  cases b
  case false => exact hpc
  case true =>
    calc s.pc + 2#16 = p + 2#16 + 2#16 := by rw [hpc]
      _ = p + 4#16 := BitVec.add_assoc p 2#16 2#16

/-- A skip on equality is taken exactly when the two bytes are equal. -/
theorem State.skipIf_beq_pc (hpc : s.pc = p + 2#16) (a b : Byte) :
    (s.skipIf (a == b)).pc = if a = b then p + 4#16 else p + 2#16 := by
  simp only [skipIf_pc hpc, beq_iff_eq]

/-- A skip on inequality is taken exactly when the two bytes differ. -/
theorem State.skipIf_bne_pc (hpc : s.pc = p + 2#16) (a b : Byte) :
    (s.skipIf (a != b)).pc = if a = b then p + 2#16 else p + 4#16 := by
  simp only [skipIf_pc hpc, bne_iff_ne, ne_eq, ite_not]

/-! ### The words of class 5 that are no instruction -/

/-- A class-5 word with `D` other than 0 is unknown (30_encoding.md R67). -/
theorem unknownWord_class5 (x y : RegIdx) {d : Nibble} (hd : d ≠ 0x0#4) :
    UnknownWord (wordOfNibbles 0x5#4 x y d).toNat := by
  refine unknownWord_iff.2 (.inr (.inl ?_))
  rw [fields_wordOfNibbles]
  exact ⟨rfl, hd⟩

/-! ### The four skips -/

/-- Settles O22: class 3 decodes to SKIP_EQ, a skip on equality whose frame is the write of `pc`. -/
theorem skipEqSkipsOnEqual : Obligations.SkipEqSkipsOnEqual :=
  ⟨fun w h => decode_class3 ((and_classMask w 0x3#4).1 h), fun x kk s _ hpc =>
    ⟨_, exec_skipEq s x kk, State.skipIf_beq_pc hpc (s.reg x) kk, SameExcept.skipIf s _⟩⟩

/-- Settles O23: class 4 decodes to SKIP_NEQ, a skip on inequality whose frame is the write of `pc`. -/
theorem skipNeqSkipsOnUnequal : Obligations.SkipNeqSkipsOnUnequal :=
  ⟨fun w h => decode_class4 ((and_classMask w 0x4#4).1 h), fun x kk s _ hpc =>
    ⟨_, exec_skipNeq s x kk, State.skipIf_bne_pc hpc (s.reg x) kk, SameExcept.skipIf s _⟩⟩

/-- Settles O24: class 5 with `D = 0` is the encoding of SKIP_EQ_REG, a skip on equality; with any other `D` the word is
unknown, and its step raises the fault. -/
theorem skipEqRegSkipsOnEqual : Obligations.SkipEqRegSkipsOnEqual := by
  refine ⟨fun w h => ?_, fun x y s p hpc => ?_, fun x y d s hd hf => ?_⟩
  · obtain ⟨hc, h0⟩ := (and_classDMask w 0x5#4 0x0#4).1 h
    exact decode_eq_ok_iff.2 (wordOfNibbles_of_class hc h0).symm
  · exact ⟨_, exec_skipEqReg s x y, State.skipIf_beq_pc hpc (s.reg x) (s.reg y), SameExcept.skipIf s _⟩
  · exact ⟨_, step_of_fetchesWord_error hf (decode_of_unknownWord (unknownWord_class5 x y hd)), rfl, rfl⟩

/-- Settles O25: class 9 decodes to SKIP_NEQ_REG with any `D`, a skip on inequality that does not read `D`. -/
theorem skipNeqRegSkipsOnUnequal : Obligations.SkipNeqRegSkipsOnUnequal :=
  ⟨fun w h => decode_class9 ((and_classMask w 0x9#4).1 h), fun x y d s _ hpc =>
    ⟨_, exec_skipNeqReg s x y d, State.skipIf_bne_pc hpc (s.reg x) (s.reg y), SameExcept.skipIf s _⟩⟩

end Sys2Proof.Machine
/-! Proofs. Immediates and the index register: LOAD_IMM, ADD_IMM and SET_INDEX (43_immediate_and_index.md R110 to R112). -/

namespace Sys2Proof.Machine

/-! ### The written piece -/

/-- The destination holds what was written, register 15 like any other (R110). -/
theorem State.setReg_reg_same (s : State) (x : RegIdx) (v : Byte) : (s.setReg x v).reg x = v :=
  (s.setReg_reg x x v).trans (if_pos rfl)

/-- A write reaches no other register. -/
theorem State.setReg_reg_of_ne (s : State) {x r : RegIdx} (h : x ≠ r) (v : Byte) : (s.setReg x v).reg r = s.reg r :=
  (s.setReg_reg x r v).trans (if_neg h)

/-- A widened 12-bit field has nothing in bits 15 to 12 (30_encoding.md R63). -/
theorem addrOperand_highBits (nnn : Addr12) : (addrOperand nnn).extractLsb' 12 4 = 0x0#4 := by
  have hlt : (addrOperand nnn).toNat < 4096 := toNat_addrOperand nnn ▸ nnn.isLt
  apply BitVec.eq_of_toNat_eq
  simp only [toNat_field, BitVec.toNat_ofNat]
  omega

/-! ### The three instructions -/

/-- Settles O26: class 6 decodes to LOAD_IMM, whose frame is the write of `x[X]`. -/
theorem loadImmWritesTheImmediate : Obligations.LoadImmWritesTheImmediate :=
  ⟨fun w h => decode_class6 ((and_classMask w 0x6#4).1 h), fun x kk s _ hpc =>
    ⟨_, exec_loadImm s x kk, s.setReg_reg_same x kk, hpc, SameExcept.setReg s x kk⟩⟩

/-- Settles O27: class 7 decodes to ADD_IMM, an 8-bit sum that goes to `x[X]` alone, so that the flag register is written
only as the destination. -/
theorem addImmWrapsAndSetsNoFlag : Obligations.AddImmWrapsAndSetsNoFlag := by
  refine ⟨fun w h => decode_class7 ((and_classMask w 0x7#4).1 h), fun x kk s p hpc => ?_⟩
  have hsum : ((s.setReg x (s.reg x + kk)).reg x).toNat = ((s.reg x).toNat + kk.toNat) % 256 := by
    rw [s.setReg_reg_same, BitVec.toNat_add]
  exact ⟨_, exec_addImm s x kk, hsum, fun hx => s.setReg_reg_of_ne hx _, hpc, SameExcept.setReg s x _⟩

/-- Settles O28: class A decodes to SET_INDEX, which writes the widened field to `idx` alone. -/
theorem setIndexWritesIdx : Obligations.SetIndexWritesIdx :=
  ⟨fun w h => decode_classA ((and_classMask w 0xA#4).1 h), fun nnn s _ hpc =>
    ⟨_, exec_setIndex s nnn, toNat_addrOperand nnn, addrOperand_highBits nnn, hpc, SameExcept.setIdx s _⟩⟩

end Sys2Proof.Machine
/-! Proofs. Class 8: MOV, the bitwise operations, ADD_REG, the four flag-first instructions and the two readings of R130
(44_alu.md R120 to R130). -/

namespace Sys2Proof.Machine

variable {i : Instr} {s : State} {p w : Word} {x y : RegIdx}

/-! ### Decoding -/

/-- A word that the mask of a class-8 row selects decodes to the row's instruction (30_encoding.md R65). -/
theorem decode_class8_of_mask {op : RegIdx → RegIdx → Instr} {k : Nibble}
    (hop : ∀ x y, encode (op x y) = wordOfNibbles 0x8#4 x y k)
    (h : w &&& 0xF00F#16 = wordOfNibbles 0x8#4 0x0#4 0x0#4 k) :
    decode w = .ok (op (w.extractLsb' 8 4) (w.extractLsb' 4 4)) := by
  obtain ⟨hc, hd⟩ := (and_classDMask w 0x8#4 k).1 h
  exact decode_eq_ok_iff.2 ((wordOfNibbles_of_class hc hd).symm.trans (hop _ _).symm)

/-! ### MOV and the bitwise operations -/

/-- Settles O29: a write of `x[Y]` to `x[X]`, whose frame is that write. -/
theorem movCopiesTheRegister : Obligations.MovCopiesTheRegister :=
  ⟨fun _ => decode_class8_of_mask (op := .mov) fun _ _ => rfl, fun x y s _ hpc =>
    ⟨_, exec_mov s x y, s.setReg_reg_same x _, hpc, SameExcept.setReg s x _⟩⟩

/-- An instruction that writes to `x[X]` a result formed bit by bit, whose value on two equal operands is known. -/
theorem exec_bitwise {op : Byte → Byte → Byte} {bit : Bool → Bool → Bool} (onSelf : Byte → Byte)
    (he : exec i s = .next (s.setReg x (op (s.reg x) (s.reg y))))
    (hbit : ∀ a b k, (op a b).getLsbD k = bit (a.getLsbD k) (b.getLsbD k)) (hself : ∀ a, op a a = onSelf a)
    (hpc : s.pc = p + 2#16) :
    ∃ t, exec i s = .next t ∧ (∀ k, (t.reg x).getLsbD k = bit ((s.reg x).getLsbD k) ((s.reg y).getLsbD k)) ∧
      (x = y → t.reg x = onSelf (s.reg x)) ∧ t.pc = p + 2#16 ∧ SameExcept [.reg x] s t := by
  have hreg := s.setReg_reg_same x (op (s.reg x) (s.reg y))
  refine ⟨_, he, fun k => ?_, fun hxy => ?_, hpc, SameExcept.setReg s x _⟩
  · rw [hreg, hbit]
  · rw [hreg, ← hxy, hself]

/-- Settles O30: the three operations act on each bit by itself and write `x[X]` alone. -/
theorem bitwiseOperationsSetNoFlag : Obligations.BitwiseOperationsSetNoFlag := by
  refine ⟨fun _ => decode_class8_of_mask (op := .or) fun _ _ => rfl,
    fun _ => decode_class8_of_mask (op := .and) fun _ _ => rfl,
    fun _ => decode_class8_of_mask (op := .xor) fun _ _ => rfl, fun x y s p hpc => ⟨?_, ?_, ?_⟩⟩
  · exact exec_bitwise id (exec_or s x y) (fun _ _ _ => BitVec.getLsbD_or) (fun _ => BitVec.or_self) hpc
  · exact exec_bitwise id (exec_and s x y) (fun _ _ _ => BitVec.getLsbD_and) (fun _ => BitVec.and_self) hpc
  · exact exec_bitwise (fun _ => 0x00#8) (exec_xor s x y) (fun _ _ _ => BitVec.getLsbD_xor) (fun _ => BitVec.xor_self) hpc

/-! ### ADD_REG -/

/-- Settles O31: the flag is the later write, so it remains for every `X`; the result remains when `X` is not 15. -/
theorem addRegGivesSumAndCarry : Obligations.AddRegGivesSumAndCarry := by
  refine ⟨fun _ => decode_class8_of_mask (op := .addReg) fun _ _ => rfl, fun x y s p hpc =>
    ⟨_, exec_addReg s x y, fun hx => ?_, ?_, hpc, SameExcept.resultThenFlag s x y _ _⟩⟩
  · rw [State.resultThenFlag_reg, if_neg (Ne.symm hx), if_pos rfl, toNat_addResult]
  · rw [State.resultThenFlag_reg, if_pos rfl, toNat_carryFlag]

/-! ### The four flag-first instructions -/

/-- What an instruction that writes the flag first does under `latched`: the result remains for every `X`, the flag when
`X` is not 15, both as numbers of the operands before the instruction (R130). -/
theorem exec_flagFirst {flag result : Byte → Byte → Byte} {q r : Nat}
    (he : exec i s = .next (s.flagThenResult .latched x y flag result))
    (hresult : (result (s.reg x) (s.reg y)).toNat = r) (hflag : (flag (s.reg x) (s.reg y)).toNat = q)
    (hpc : s.pc = p + 2#16) :
    ∃ t, exec i s = .next t ∧ (t.reg x).toNat = r ∧ (x ≠ 0xF#4 → (t.reg 0xF#4).toNat = q) ∧ t.pc = p + 2#16 ∧
      SameExcept [.reg x, .reg 0xF#4] s t := by
  refine ⟨_, he, ?_, fun hx => ?_, hpc, SameExcept.flagThenResult s x y _ _⟩
  · rw [State.flagThenResult_latched_reg, if_pos rfl, hresult]
  · rw [State.flagThenResult_latched_reg, if_neg hx, if_pos rfl, hflag]

/-- Settles O32: the strict comparison and the difference of the old operands. -/
theorem subRegGivesDifferenceAndStrictFlag : Obligations.SubRegGivesDifferenceAndStrictFlag :=
  ⟨fun _ => decode_class8_of_mask (op := .subReg) fun _ _ => rfl, fun x y s _ =>
    exec_flagFirst (exec_subReg s x y) (toNat_subResult _ _) (toNat_greaterFlag _ _)⟩

/-- Settles O33: bit 0 and the halved value of the old operand. -/
theorem shrShiftsRightAndKeepsTheLowBit : Obligations.ShrShiftsRightAndKeepsTheLowBit :=
  ⟨fun _ => decode_class8_of_mask (op := .shr) fun _ _ => rfl, fun x y s _ =>
    exec_flagFirst (exec_shr s x y) (toNat_shrResult _) (toNat_lowBitFlag _)⟩

/-- Settles O34: SUB_REG's two computations with the operands exchanged, the destination still `X`. -/
theorem subnRegGivesMirroredDifference : Obligations.SubnRegGivesMirroredDifference :=
  ⟨fun _ => decode_class8_of_mask (op := .subnReg) fun _ _ => rfl, fun x y s _ =>
    exec_flagFirst (exec_subnReg s x y) (toNat_subResult _ _) (toNat_greaterFlag _ _)⟩

/-- Settles O35: bit 7 and the doubled value of the old operand. -/
theorem shlShiftsLeftAndKeepsTheHighBit : Obligations.ShlShiftsLeftAndKeepsTheHighBit :=
  ⟨fun _ => decode_class8_of_mask (op := .shl) fun _ _ => rfl, fun x y s _ =>
    exec_flagFirst (exec_shl s x y) (toNat_shlResult _) (toNat_highBitFlag _)⟩

/-! ### The two readings of R130 -/

namespace State

variable (s) (m : Config.AliasMode) (flag result : Byte → Byte → Byte)

/-- The readings agree when the flag write reaches neither operand. -/
theorem flagThenResult_eq_latched (hx : x ≠ 0xF#4) (hy : y ≠ 0xF#4) :
    s.flagThenResult m x y flag result = s.flagThenResult .latched x y flag result := by
  cases m
  case latched => rfl
  case sequential =>
    simp only [flagThenResult, Config.flagReg, s.setReg_reg_of_ne hx.symm, s.setReg_reg_of_ne hy.symm]

/-- `sequential`: the destination holds the result of the register file in which the flag is written already. -/
theorem flagThenResult_sequential_reg (x y : RegIdx) :
    (s.flagThenResult .sequential x y flag result).reg x =
      result ((s.setReg 0xF#4 (flag (s.reg x) (s.reg y))).reg x) ((s.setReg 0xF#4 (flag (s.reg x) (s.reg y))).reg y) :=
  setReg_reg_same _ x _

/-- `sequential` with `X = 15` only: the first operand of the result is the new flag. -/
theorem flagThenResult_sequential_x15 (hy : y ≠ 0xF#4) :
    (s.flagThenResult .sequential 0xF#4 y flag result).reg 0xF#4 = result (flag (s.reg 0xF#4) (s.reg y)) (s.reg y) := by
  rw [flagThenResult_sequential_reg, setReg_reg_same, setReg_reg_of_ne s hy.symm]

/-- `sequential` with `Y = 15` only: the second operand of the result is the new flag. -/
theorem flagThenResult_sequential_y15 (hx : x ≠ 0xF#4) :
    (s.flagThenResult .sequential x 0xF#4 flag result).reg x = result (s.reg x) (flag (s.reg x) (s.reg 0xF#4)) := by
  rw [flagThenResult_sequential_reg, setReg_reg_same, setReg_reg_of_ne s hx.symm]

/-- `sequential` with both operands register 15, as in a shift of it: both operands of the result are the new flag. -/
theorem flagThenResult_sequential_both15 :
    (s.flagThenResult .sequential 0xF#4 0xF#4 flag result).reg 0xF#4 =
      result (flag (s.reg 0xF#4) (s.reg 0xF#4)) (flag (s.reg 0xF#4) (s.reg 0xF#4)) := by
  rw [flagThenResult_sequential_reg, setReg_reg_same]

/-- With two equal operands the readings agree on a result that does not depend on their value. -/
theorem flagThenResult_both15_const {c : Byte} (hc : ∀ a, result a a = c) :
    (s.flagThenResult m 0xF#4 0xF#4 flag result).reg 0xF#4 = c := by
  cases m
  case latched => rw [flagThenResult_latched_reg, if_pos rfl, hc]
  case sequential => rw [flagThenResult_sequential_both15, hc]

end State

/-- A bit shifted right is gone. -/
theorem shrResult_lowBitFlag (a : Byte) : shrResult (lowBitFlag a) = 0x00#8 := by
  apply BitVec.eq_of_toNat_eq
  rw [toNat_shrResult, toNat_lowBitFlag, BitVec.toNat_ofNat]
  omega

/-- A bit shifted left is a 2 or a 0. -/
theorem toNat_shlResult_highBitFlag (a : Byte) : (shlResult (highBitFlag a)).toNat = 2 * (a.toNat / 128) := by
  have := a.isLt
  rw [toNat_shlResult, toNat_highBitFlag]
  omega

/-- Settles O36: by which of `X` and `Y` the flag write reaches; a shift of register 15 has it for both operands. -/
theorem aliasReadingsDifferOnlyAtRegister15 : Obligations.AliasReadingsDifferOnlyAtRegister15 := by
  refine ⟨fun m x y s hx hy => ?_, fun m s => ?_, fun y s hy => ?_, fun x s hx => ?_, fun s => ?_⟩
  · exact ⟨s.flagThenResult_eq_latched m _ _ hx hy, s.flagThenResult_eq_latched m _ _ hx hy,
      s.flagThenResult_eq_latched m _ _ hx hx, s.flagThenResult_eq_latched m _ _ hx hx⟩
  · exact ⟨s.flagThenResult_both15_const m _ _ BitVec.sub_self, s.flagThenResult_both15_const m _ _ BitVec.sub_self⟩
  · exact ⟨s.flagThenResult_sequential_x15 _ _ hy, s.flagThenResult_sequential_x15 _ _ hy⟩
  · exact ⟨s.flagThenResult_sequential_y15 _ _ hx, s.flagThenResult_sequential_y15 _ _ hx⟩
  · have hshr := (s.flagThenResult_sequential_both15 (fun a _ => lowBitFlag a) fun a _ => shrResult a).trans
      (shrResult_lowBitFlag _)
    have hshl := congrArg BitVec.toNat
      (s.flagThenResult_sequential_both15 (fun a _ => highBitFlag a) fun a _ => shlResult a)
    exact ⟨hshr, hshl.trans (toNat_shlResult_highBitFlag _)⟩

end Sys2Proof.Machine
/-! Proofs. RANDOM_AND (45_random.md R140). -/

namespace Sys2Proof.Machine

namespace SameExcept

/-- The frame of a draw. -/
theorem countDraw (s : State) : SameExcept [.drawn] s s.countDraw := by
  refine ⟨fun p hp => ?_, fun _ => rfl⟩
  cases p
  case drawn => simp at hp
  all_goals rfl

/-- The frame of a masked write, whatever the byte is. -/
theorem maskInto (s : State) (x : RegIdx) (kk r : Byte) : SameExcept [.reg x] s (s.maskInto x kk r) :=
  setReg s x (r &&& kk)

/-- The frame of a draw and a masked write: neither reads what the other writes, so the draw may come last. -/
theorem maskInto_countDraw (s : State) (x : RegIdx) (kk r : Byte) :
    SameExcept [.reg x, .drawn] s (s.countDraw.maskInto x kk r) :=
  (maskInto s x kk r).trans (countDraw (s.maskInto x kk r))

end SameExcept

/-- The destination holds the masked byte. -/
theorem State.maskInto_reg_same (s : State) (x : RegIdx) (kk r : Byte) : (s.maskInto x kk r).reg x = r &&& kk :=
  s.setReg_reg_same x (r &&& kk)

/-- Settles O37: class C decodes to RANDOM_AND, which counts a draw and writes the masked byte; the bits of the result
are those of the conjunction, and no fact about the byte is used. -/
theorem randomAndMasksOneDrawnByte : Obligations.RandomAndMasksOneDrawnByte := by
  refine ⟨fun w h => decode_classC ((and_classMask w 0xC#4).1 h), fun x kk s p hpc => ?_,
    fun x kk r s => ⟨s.maskInto_reg_same x kk r, SameExcept.maskInto s x kk r⟩⟩
  have hreg : (s.countDraw.maskInto x kk s.rnd).reg x = s.rnd &&& kk := s.countDraw.maskInto_reg_same x kk s.rnd
  refine ⟨_, exec_randomAnd s x kk, hreg, fun k hk => ?_, fun hkk => ?_, rfl, hpc,
    SameExcept.maskInto_countDraw s x kk s.rnd⟩
  · rw [hreg, BitVec.getLsbD_and, hk, Bool.and_false]
  · calc (s.countDraw.maskInto x kk s.rnd).reg x = s.rnd &&& kk := hreg
      _ = s.rnd &&& BitVec.allOnes 8 := by rw [hkk]; rfl
      _ = s.rnd := BitVec.and_allOnes

end Sys2Proof.Machine
/-! Proofs. The stubbed classes D, E and F (46_stubbed_and_unknown.md R145). -/

namespace Sys2Proof.Machine

/-- Settles O38: the class nibble alone selects the stub, and the three stubs answer one state, that of a raised
NotImplemented, whose frame is that of any raised fault. -/
theorem stubbedClassesRaiseNotImplemented : Obligations.StubbedClassesRaiseNotImplemented :=
  ⟨fun w h => decode_classD ((and_classMask w 0xD#4).1 h), fun w h => decode_classE ((and_classMask w 0xE#4).1 h),
    fun w h => decode_classF ((and_classMask w 0xF#4).1 h), fun nnn s _ hpc =>
      ⟨s.raise .notImplemented, exec_stubD s nnn, exec_stubE s nnn, exec_stubF s nnn, rfl, rfl, rfl, hpc,
        SameExcept.raise s .notImplemented⟩⟩

end Sys2Proof.Machine
/-! Proofs. Faults: which steps raise one, what a fault leaves unchanged, and the runs that have ended (60_exceptions.md
R160 to R170). -/

namespace Sys2Proof.Machine

variable {i : Instr} {s t : State} {c : Cause}

/-! ### The instructions that fault -/

/-- The fault depends on the instruction and `sp`, which the advance keeps. -/
theorem faultOf_advance (s : State) (i : Instr) : faultOf s.advance i = faultOf s i := by cases i <;> rfl

/-- Only the fetch raises OutOfBoundsFetch (R163). -/
theorem faultOf_ne_outOfBoundsFetch (s : State) (i : Instr) : faultOf s i ≠ some .outOfBoundsFetch := by
  cases i
  case call | ret => simp only [faultOf]; split <;> simp
  all_goals simp [faultOf]

/-- An instruction that faults raises its fault and does nothing else (R161, R162, R165). -/
theorem exec_of_faultOf_eq_some (hf : faultOf s i = some c) : exec i s = .next (s.raise c) := by
  cases i
  case call nnn =>
    obtain ⟨hsp, hc⟩ := Option.ite_none_right_eq_some.1 hf
    cases hc; exact exec_call_full hsp nnn
  case ret =>
    obtain ⟨hsp, hc⟩ := Option.ite_none_right_eq_some.1 hf
    cases hc; exact exec_ret_empty hsp
  case stubD | stubE | stubF => cases hf; rfl
  all_goals cases hf

/-- An instruction that does not fault keeps the run state, or halts. -/
theorem exec_run_of_faultOf_eq_none (hf : faultOf s i = none) (h : exec i s = .next t) :
    t.run = s.run ∨ t.run = .halted := by
  cases i
  case halt => cases h; exact .inr rfl
  case call nnn =>
    have hsp : s.sp.val ≠ 16 := fun e => by simp [faultOf, e] at hf
    rw [exec_call_free hsp] at h; cases h; exact .inl rfl
  case ret =>
    have hsp : s.sp.val ≠ 0 := fun e => by simp [faultOf, e] at hf
    rw [exec_ret_saved hsp] at h; cases h; exact .inl rfl
  case skipEq | skipNeq | skipEqReg | skipNeqReg =>
    simp only [exec_skipEq, exec_skipNeq, exec_skipEqReg, exec_skipNeqReg, State.skipIf_eq_setPc] at h
    cases h; exact .inl rfl
  case stubD | stubE | stubF => cases hf
  all_goals cases h; exact .inl rfl

/-- The execute part of a running step ends in FAULTED only by the fault of its instruction. -/
theorem faultOf_of_exec_faulted (hr : s.run = .running) (h : exec i s = .next t) (ht : t.run = .faulted) :
    ∃ c, faultOf s i = some c ∧ t = s.raise c := by
  cases hf : faultOf s i with
  | none => rcases exec_run_of_faultOf_eq_none hf h with e | e <;> simp [e, hr] at ht
  | some c =>
    cases (exec_of_faultOf_eq_some hf).symm.trans h
    exact ⟨c, rfl, rfl⟩

/-- Settles O14: the fetch and the decoder raise the first two causes, the instruction its own. -/
theorem faultsAreExactlyTheFive : Obligations.FaultsAreExactlyTheFive := by
  refine ⟨fun s t hr hpc h => ?_, fun s t w hf hw h => ?_, fun s t w i hf hw h => ?_, rfl, rfl, rfl, rfl, rfl⟩
  · cases (step_of_fetch_error hr (State.fetch_of_ge hpc)).symm.trans h
    exact ⟨rfl, rfl⟩
  · cases (step_of_fetchesWord_error hf (decode_of_unknownWord hw)).symm.trans h
    exact ⟨rfl, rfl⟩
  · rw [step_of_fetchesWord hf hw] at h
    have raised : ∀ c, faultOf s i = some c → t = s.advance.raise c := fun c hc => by
      cases (exec_of_faultOf_eq_some ((faultOf_advance s i).trans hc)).symm.trans h
      rfl
    refine ⟨⟨fun ht => ?_, fun hne => ?_⟩, fun c hc => congrArg State.cause (raised c hc)⟩
    · obtain ⟨c, hc, -⟩ := faultOf_of_exec_faulted (s := s.advance) hf.1 h ht
      exact Option.ne_none_iff_exists'.2 ⟨c, (faultOf_advance s i).symm.trans hc⟩
    · obtain ⟨c, hc⟩ := Option.ne_none_iff_exists'.1 hne
      exact congrArg State.run (raised c hc)

/-! ### The state after a fault -/

/-- The frame of a fault after the advance (R166, 92_eei_decisions.md D8). -/
theorem SameExcept.advance_raise (s : State) (c : Cause) : SameExcept [.pc, .run, .cause] s (s.advance.raise c) :=
  (setPc s _).trans (raise s.advance c)

/-- Settles O15: a faulting step raises on the state itself in the fetch, on the advanced state afterwards. -/
theorem faultsArePrecise : Obligations.FaultsArePrecise := by
  intro s t hr hstep ht
  have after_advance : ∀ c, c ≠ .outOfBoundsFetch → t = s.advance.raise c →
      t.pc = (if t.cause = .outOfBoundsFetch then s.pc else s.pc + 2#16) ∧ SameExcept [.pc, .run, .cause] s t := by
    rintro c hc rfl
    exact ⟨(if_neg hc).symm, SameExcept.advance_raise s c⟩
  rcases step_cases hstep with ⟨hn, -⟩ | ⟨-, -, rfl⟩ | ⟨-, -, w, -, ⟨i, -, he⟩ | ⟨-, hu⟩⟩
  · exact absurd hr hn
  · exact ⟨rfl, (SameExcept.rfl' s [.pc]).trans (SameExcept.raise s _)⟩
  · obtain ⟨c, hc, hraise⟩ := faultOf_of_exec_faulted (s := s.advance) hr he ht
    exact after_advance c (fun e => faultOf_ne_outOfBoundsFetch s.advance i (e ▸ hc)) hraise
  · exact after_advance .unknownOpcode (by decide) hu

/-- Settles O11: the decoder rejects the word, and the fault is raised on the advanced state. -/
theorem unknownWordRaisesUnknownOpcode : Obligations.UnknownWordRaisesUnknownOpcode :=
  fun s _ hf hw => ⟨s.advance.raise .unknownOpcode, step_of_fetchesWord_error hf (decode_of_unknownWord hw), rfl, rfl, rfl,
    rfl, SameExcept.advance_raise s _⟩

/-! ### Ended runs -/

/-- Settles O16: outside RUNNING the step answers the state itself, and outside IDLE every host action but reset does. -/
theorem endedRunsAreFrozenUntilReset : Obligations.EndedRunsAreFrozenUntilReset := by
  intro s hs
  have hrun : s.run ≠ .running := by rcases hs with e | e <;> simp [e]
  have hidle : s.run ≠ .idle := by rcases hs with e | e <;> simp [e]
  refine ⟨run_of_step_eq_self (M := Sys2Proof.core) (step_of_not_running hrun), fun m t hm h => ?_, s.resetBlock, rfl, rfl⟩
  rcases hostMove_cases h with ⟨hreset, -⟩ | ⟨hi, -⟩ | ⟨-, ht⟩
  · exact absurd hreset hm
  · exact absurd hi hidle
  · exact ht

end Sys2Proof.Machine
/-! Proofs. Reset (70_reset_and_hazards.md R190, R191), the word that the host places at `pc` (R192), and the next state
that every state has (R204). -/

namespace Sys2Proof.Machine

variable {i : Instr} {s t : State}

/-! ### Every state has a next state -/

/-- No instruction stops with a fault or a refusal of the model: O40 gives its next state. -/
theorem exists_exec_eq_next (i : Instr) (s : State) : ∃ t, exec i s = .next t :=
  (registersReadAndWrittenByTheTable i s).imp fun _ h => h.1

/-- An unknown word has a next state too: that of the raised UnknownOpcode (R147). -/
theorem State.exists_execWord_eq_next (s : State) (w : Word) : ∃ t, s.execWord w = .next t := by
  rcases decode_cases w with ⟨i, hw, -⟩ | ⟨hw, -⟩
  · exact execWord_of_decode hw ▸ exists_exec_eq_next i s.advance
  · exact ⟨s.advance.raise .unknownOpcode, by simp only [execWord, hw, execUnknown]⟩

/-- Outside RUNNING and after a fetch out of bounds the next state is given; otherwise the fetched word gives it. -/
theorem exists_step_eq_next (s : State) : ∃ t, step s = .next t := by
  by_cases hr : s.run = .running
  · cases hf : s.fetch with
    | ok w => exact step_of_fetch hr hf ▸ s.exists_execWord_eq_next w
    | error c => exact ⟨_, step_of_fetch_error hr hf⟩
  · exact ⟨_, step_of_not_running hr⟩

/-- How a transition from `s` to `t` leaves the run (R80, R160): in the same run state or halted with the cause as it was,
or faulted with a cause. -/
def EndsInOneOfThreeWays (s t : State) : Prop :=
  (t.run = s.run ∧ t.cause = s.cause) ∨ (t.run = .halted ∧ t.cause = s.cause) ∨ (t.run = .faulted ∧ t.cause ≠ .none)

theorem EndsInOneOfThreeWays.raise (s : State) {c : Cause} (hc : c ≠ .none) : EndsInOneOfThreeWays s (s.raise c) :=
  .inr (.inr ⟨rfl, hc⟩)

theorem exec_endsInOneOfThreeWays (h : exec i s = .next t) : EndsInOneOfThreeWays s t := by
  rcases exec_cases i h with ⟨_, rfl⟩ | ⟨_, rfl⟩ | ⟨_, rfl⟩ | ⟨_, rfl⟩ | ⟨_, _, rfl⟩ | ⟨_, rfl⟩ | rfl | ⟨rfl, _⟩ |
    ⟨rfl, _⟩ | rfl
  iterate 6 exact .inl ⟨rfl, rfl⟩
  · exact .inr (.inl ⟨rfl, rfl⟩)
  all_goals exact .raise s (by decide)

theorem step_endsInOneOfThreeWays (h : step s = .next t) : EndsInOneOfThreeWays s t := by
  rcases step_cases h with ⟨-, rfl⟩ | ⟨-, -, rfl⟩ | ⟨-, -, _, -, ⟨i, -, he⟩ | ⟨-, rfl⟩⟩
  · exact .inl ⟨rfl, rfl⟩
  · exact .raise s (by decide)
  · exact exec_endsInOneOfThreeWays (s := s.advance) he
  · exact .raise s.advance (by decide)

/-- Settles O13: the step answers a next state, and that state is one of the three kinds. -/
theorem everyStateHasANextState : Obligations.EveryStateHasANextState := by
  intro s
  obtain ⟨t, ht⟩ := exists_step_eq_next s
  refine ⟨t, ht, fun hr => ?_, fun hr => hr ▸ step_endsInOneOfThreeWays ht⟩
  cases (step_of_not_running hr).symm.trans ht
  rfl

/-! ### The word placed at `pc` -/

namespace State

theorem withFetchablePc_of_le (h : s.pc.toNat ≤ 4094) : s.withFetchablePc = s :=
  if_neg (by simp only [Config.memSize]; omega)

theorem withFetchablePc_of_ge (h : 4095 ≤ s.pc.toNat) : s.withFetchablePc = s.setPc Config.startAddr :=
  if_pos (by simp only [Config.memSize]; omega)

/-- A fetch succeeds at the address that the host stores the word at (log entry 4). -/
theorem withFetchablePc_pc_le (s : State) : s.withFetchablePc.pc.toNat ≤ 4094 := by
  rcases Nat.lt_or_ge 4094 s.pc.toNat with h | h
  · rw [withFetchablePc_of_ge h, setPc_pc]; decide
  · rwa [withFetchablePc_of_le h]

theorem withFetchablePc_mem (s : State) : s.withFetchablePc.mem = s.mem := by
  simp only [withFetchablePc]
  split <;> rfl

/-- A placed word stands at `pc`, the more significant byte first (20_memory.md R41). -/
theorem placeWord_memRead (hm : s.mem.wf) (hpc : s.pc.toNat ≤ 4094) (w : Word) :
    (s.placeWord w).memRead s.pc.toNat = some (w.extractLsb' 8 8) ∧
      (s.placeWord w).memRead (s.pc.toNat + 1) = some (w.extractLsb' 0 8) := by
  have hm' : (s.writeByte s.pc.toNat (w.extractLsb' 8 8)).mem.wf :=
    Memory.write_wf hm (by simp only [Config.memSize]; omega) _
  constructor
  · rw [placeWord, writeByte_memRead hm', if_neg (by omega), writeByte_memRead hm, if_pos (by omega)]
  · rw [placeWord, writeByte_memRead hm', if_pos (by omega)]

theorem loadAndStart_pc (s : State) (w : Word) : (s.loadAndStart w).pc = s.withFetchablePc.pc := rfl

/-- Loading a 16-bit word by its number loads the word. -/
theorem withFetchWord_toNat (s : State) (w : Word) : s.withFetchWord 16 w.toNat = s.loadAndStart w := by
  rw [withFetchWord, Nat.mod_eq_of_lt w.isLt, BitVec.ofNat_toNat, BitVec.setWidth_eq]

end State

/-- After the host has stored the word and started the block, the word is the one that the step fetches (R192). -/
theorem fetchesWord_loadAndStart (hm : s.mem.wf) (w : Word) : FetchesWord (s.loadAndStart w) w :=
  ⟨rfl, s.withFetchablePc_pc_le,
    State.placeWord_memRead (s.withFetchablePc_mem.symm ▸ hm) s.withFetchablePc_pc_le w⟩

/-- Settles O54: the placed word is fetched, and a fetched word that decodes runs as its instruction. -/
theorem nextStepRunsThePlacedWord : Obligations.NextStepRunsThePlacedWord := by
  intro s w i hm hw
  rw [s.withFetchWord_toNat w]
  have hf := fetchesWord_loadAndStart hm w
  refine ⟨hf, step_of_fetchesWord hf hw, fun hpc => ?_⟩
  rw [State.loadAndStart_pc, State.withFetchablePc_of_le hpc]

/-! ### The reset state -/

theorem State.reset_reg (r : RegIdx) : State.reset.reg r = 0x00#8 := Vector.getElem_replicate r.isLt

/-- Every byte of memory reads 0 after reset, and no other address exists. -/
theorem State.reset_memRead (a : Nat) : State.reset.memRead a = if a < 4096 then some 0x00#8 else none := rfl

/-- Settles O48: the pieces one by one. -/
theorem resetValues : Obligations.ResetValues :=
  ⟨State.reset_reg, rfl, rfl, State.reset_slot, rfl, State.reset_memRead, rfl, rfl, rfl⟩

/-- The block started straight after reset fetches 0x0000, the word of HALT, at 0x200. -/
theorem fetchesWord_reset_setRunning : FetchesWord State.reset.setRunning (encode .halt) :=
  ⟨rfl, by decide, State.reset_memRead 0x200, State.reset_memRead 0x201⟩

/-- Settles O53: `start` acts in IDLE, and the one step that follows executes HALT. -/
theorem startAfterResetHaltsAtOnce : Obligations.StartAfterResetHaltsAtOnce := by
  refine ⟨State.reset.setRunning, State.reset.setRunning.advance.halt, congrArg Host.Outcome.next (start_of_idle rfl), ?_,
    rfl, rfl, rfl, State.reset_reg, rfl⟩
  rw [step_of_fetchesWord fetchesWord_reset_setRunning (decode_encode .halt), exec_halt]

/-- Settles O55: the reset state with the count of draws that it has. -/
theorem resetMeetsTheInvariant : Obligations.ResetMeetsTheInvariant := .reset_withDrawn State.reset.drawn

end Sys2Proof.Machine
